-- ==== Sys2Proof/Word.lean ====
section
/-! DEFINITION. Sys2Proof/Word.lean: the word types of the block. Every byte is unsigned (00_scope.md R15) and bit 0 is
the least significant bit of every value (R9). -/

namespace Sys2Proof

/-- A byte of a request: an integer 0..255 (R6 BYTE_WIDTH, R15). -/
abbrev Byte := BitVec 8

/-- The 48-bit word `W = b0 ‖ b1 ‖ b2 ‖ b3 ‖ b4 ‖ b5` that the opcode table numbers (20_memory.md R42). -/
abbrev Word48 := BitVec 48

/-- A binary64 bit pattern, bit 63 the sign (R6 OUT_WIDTH, 20_memory.md R44). -/
abbrev Bits64 := BitVec 64

/-- A raw value: "an ordered sequence of exactly 6 unsigned 8-bit values", `b0` first (R41, R82). -/
structure RawValue where
  b0 : Byte
  b1 : Byte
  b2 : Byte
  b3 : Byte
  b4 : Byte
  b5 : Byte
  deriving DecidableEq, Repr

/-- The bytes of a raw value in sequence order (R41). -/
def RawValue.bytes (v : RawValue) : List Byte := [v.b0, v.b1, v.b2, v.b3, v.b4, v.b5]

end Sys2Proof
end

