-- ==== Sys2Proof/Machine/Flags.lean ====
section
/-! DEFINITION. Sys2Proof/Machine/Flags.lean: the block has no flag and no condition code (10_state.md R28). The one
condition it computes is the zero detector of 42_exponent_assemble.md, which selects the class of a request. -/

namespace Sys2Proof.Machine

/-- EXP8 (R120): the raw exponent is the last byte, unsigned. -/
def exp8 (b5 : Byte) : BitVec 8 := b5

/-- ZERO (R121): 1 exactly when EXP8 is 0. It reads no bit of `b0..b4`. -/
def zeroBit (e : BitVec 8) : BitVec 1 := if e = 0 then 1 else 0

end Sys2Proof.Machine
end

