-- ==== Sys2Proof/Syntax.lean ====
section
/-! DEFINITION. Sys2Proof/Syntax.lean: the operation classes of 30_encoding.md R67, one constructor per row of
spec/opcode_table.json. -/

namespace Sys2Proof

/-- The two classes of a six-byte request. The operands are the request's bytes (40_converter.md R83, R84). -/
inductive Instr where
  /-- `DECODE.ZERO`: the exponent byte `b5` is 0, so it is not an operand (R83). -/
  | decodeZero (b0 b1 b2 b3 b4 : Byte)
  /-- `DECODE.NORMAL`: the exponent byte `b5` is not 0 (R84; `Instr.wf` says so). -/
  | decodeNormal (b0 b1 b2 b3 b4 b5 : Byte)
  deriving DecidableEq, Repr

end Sys2Proof
end

