-- ==== Sys2Proof/WellFormed.lean ====
section
/-! DEFINITION. Sys2Proof/WellFormed.lean: the one check on an instruction. -/

namespace Sys2Proof

/-- The table's constraint of each row: `DECODE.NORMAL` has `e ≠ 0`; `DECODE.ZERO` takes every `s` and `f` (R67, R69). -/
def Instr.wf : Instr → Bool
  | .decodeZero _ _ _ _ _ => true
  | .decodeNormal _ _ _ _ _ b5 => b5 != 0

end Sys2Proof
end

