-- ==== Sys2Proof/Decode.lean ====
section
/-! DEFINITION. Sys2Proof/Decode.lean: the length check and the class selection (40_converter.md R81, R82;
30_encoding.md R67), the encoder, and the table's numbering of a request's bits (20_memory.md R42). -/

namespace Sys2Proof

/-- What the decoder rejects, by name: only a length other than six (R68, R70, R81). -/
inductive DecodeError where
  /-- The request has `n ≠ 6` bytes. -/
  | invalidLength (n : Nat)
  deriving DecidableEq, Repr

/-- The class of six bytes; the zero test comes first (R67, R88). -/
def decodeSix (v : RawValue) : Instr :=
  if Machine.zeroBit (Machine.exp8 v.b5) = 1 then .decodeZero v.b0 v.b1 v.b2 v.b3 v.b4
  else .decodeNormal v.b0 v.b1 v.b2 v.b3 v.b4 v.b5

/-- Decoding, total on any bytes: the length check before any byte is examined (R81, R172), then the class. -/
def decode : List Byte → Except DecodeError Instr
  | [b0, b1, b2, b3, b4, b5] => .ok (decodeSix ⟨b0, b1, b2, b3, b4, b5⟩)
  | bytes => .error (.invalidLength bytes.length)

/-- The six bytes of an instruction in sequence order, from the encoding strings of R60. -/
def encode : Instr → List Byte
  | .decodeZero b0 b1 b2 b3 b4 => [b0, b1, b2, b3, b4, 0]
  | .decodeNormal b0 b1 b2 b3 b4 b5 => [b0, b1, b2, b3, b4, b5]

/-- The byte sequence of a word `W`: `bi = W[47-8i : 40-8i]` (R42), the most significant byte first (R41). -/
def wordBytes (w : Word48) : List Byte :=
  [w.extractLsb' 40 8, w.extractLsb' 32 8, w.extractLsb' 24 8,
   w.extractLsb' 16 8, w.extractLsb' 8 8, w.extractLsb' 0 8]

/-- `W` of six bytes: `b0 ‖ b1 ‖ b2 ‖ b3 ‖ b4 ‖ b5` (R42). -/
def RawValue.word (v : RawValue) : Word48 := v.b0 ++ v.b1 ++ v.b2 ++ v.b3 ++ v.b4 ++ v.b5

/-- The six bytes of the table word whose low `nbits` bits are `w` and whose other bits are 0 (log entry 7: the table's
one word is `W`, bit 0 of which is bit 0 of `b5`). -/
def tableWordBytes (nbits w : Nat) : List Byte := wordBytes (BitVec.ofNat 48 (w % 2 ^ nbits))

/-- The instruction the decoder reads from a table word. A row wider than a request's 48 bits does not exist. -/
def decodeTableWord (nbits w : Nat) : Option Instr :=
  if nbits ≤ 48 then
    match decode (tableWordBytes nbits w) with
    | .ok i => some i
    | .error _ => none
  else none

end Sys2Proof
end

