-- ==== Sys2Proof/Config.lean ====
section
/-! DEFINITION. Sys2Proof/Config.lean: what is fixed when the block is built (00_scope.md R7, R8; 10_state.md R33), and
the one free value the spec leaves to no rule (20_memory.md R51). -/

namespace Sys2Proof

/-- `DIGIT_SOURCE` (R7): which decimal representation of the reinterpreted double is truncated. -/
inductive DigitSource where
  | exact
  | shortest
  deriving DecidableEq, Repr

/-- The two build-time parameters. They are arguments of the model, constant for a whole run (R33). -/
structure Config where
  digitSource : DigitSource
  echoPresent : Bool
  deriving DecidableEq, Repr

/-- The spec's defaults: `DIGIT_SOURCE = EXACT` (R7) and `ECHO_PRESENT = true` (R8). -/
def Config.default : Config := { digitSource := .exact, echoPresent := true }

/-- FREE VALUE (log entry 2). The spec fixes no order in which requests in flight are answered (R51, I9). At turn `n`
the block picks by this number; it has no body, so no proof can rest on the order it gives. -/
opaque Config.serviceOrder : Nat → Nat

end Sys2Proof
end

