-- ==== Sys2Proof/Machine/State.lean ====
section
/-! DEFINITION. Sys2Proof/Machine/State.lean: the ports of the block and the requests in flight (10_state.md R20 to
R23), and why a step can stop. The block has no register, program counter, flag, control register, memory or mode
(R26 to R32, R40, R179), so none stands here; the internal values of R24 are functions, held in no state. -/

namespace Sys2Proof.Machine

/-- A request in flight (R21). `id` is its presentation number, by which its response is matched to it (R51). -/
structure Request where
  id    : Nat
  bytes : List Byte
  deriving DecidableEq, Repr

/-- A response (R22). -/
inductive Response where
  /-- `Ok(VALUE, ECHO)`; the echo is absent when `ECHO_PRESENT = false` (R85). -/
  | ok (value : Bits64) (echo : Option RawValue)
  /-- `Err(code, info)` (R170): no value and no echo (R173). -/
  | err (code : Nat) (info : Nat)
  deriving DecidableEq, Repr

/-- A response delivered on `RSP`, matched to its request (R51). -/
structure Answer where
  request  : Request
  response : Response
  deriving DecidableEq, Repr

/-- What the outside world does between two requests of the block (INVENTORY.md, Host interface). -/
inductive Input where
  /-- A requester presents a byte sequence of any length (R21). -/
  | present (bytes : List Byte)
  /-- Somebody reads the response port (R191). -/
  | read
  /-- Reset (R190). -/
  | reset
  /-- Nothing happens outside: the block takes its turn. -/
  | serve
  deriving DecidableEq, Repr

/-- The machine. `config` is the model's argument carried along, which no step writes (log entry 1). -/
structure State where
  config    : Config            -- DIGIT_SOURCE and ECHO_PRESENT (R7, R8, R33)
  inputs    : List Input        -- what the outside world does next, the next first
  inFlight  : List Request      -- REQ: presented and not yet answered, oldest first (R20, R21)
  rsp       : Option Response   -- RSP: the response the port holds; none until a request is answered (R22, R191)
  answered  : List Answer       -- the responses delivered so far, each with its request, oldest first (R23, R51, R72)
  presented : Nat               -- how many requests have been presented: the next presentation number
  turn      : Nat               -- the model's counter for the free delivery order (log entry 2)
  deriving DecidableEq, Repr

/-- Why the machine stops with a fault. -/
inductive Fault where
  /-- Raised by the input `read` while `RSP` holds no response: "A model must treat reading it as a fault, not as
  zero" (R191, I7). Safe: the machine stops where the hardware gives an unspecified value. -/
  | readBeforeResponse
  deriving DecidableEq, Repr

/-- Why the machine has no meaning for something. -/
inductive Refusal where
  /-- Raised only by an arm of `exec` whose instruction has no meaning yet; no arm is one. Safe: the machine stops. -/
  | notModelled (mnemonic : String)
  deriving DecidableEq, Repr

/-- The state right after reset, for one configuration: no request in flight, no response on the port (R190, R191). -/
def State.resetWith (cfg : Config) : State :=
  { config := cfg, inputs := [], inFlight := [], rsp := none, answered := [], presented := 0, turn := 0 }

/-- The state right after reset, with the spec's default configuration (R7, R8, R190, R191). -/
def State.reset : State := State.resetWith Config.default

end Sys2Proof.Machine
end

