-- ==== Sys2Proof/Machine/Ops.lean ====
section
/-! DEFINITION. Sys2Proof/Machine/Ops.lean: the named operations over the ports: presenting a request, choosing the one
to answer, the two responses, delivering an answer, and reset. -/

namespace Sys2Proof.Machine

/-- A requester presents `bytes` (R21): the request joins those in flight under the next presentation number. -/
def State.present (bytes : List Byte) (s : State) : State :=
  { s with inFlight := s.inFlight ++ [⟨s.presented, bytes⟩], presented := s.presented + 1 }

/-- Which of `n` requests in flight is answered at turn `turn`: the only one, or any one (free: R51, I9). -/
def chosenIndex (turn : Nat) : Nat → Nat
  | 0 => 0
  | 1 => 0
  | n + 2 => Config.serviceOrder turn % (n + 2)

/-- The block takes a request in flight to answer it; none when no request is in flight (R23). -/
def State.take? (s : State) : Option (Request × State) :=
  match s.inFlight[chosenIndex s.turn s.inFlight.length]? with
  | none => none
  | some r =>
    some (r, { s with inFlight := s.inFlight.eraseIdx (chosenIndex s.turn s.inFlight.length), turn := s.turn + 1 })

/-- The echo (R85, R45): the six bytes unchanged when `ECHO_PRESENT = true`, absent otherwise. -/
def echoOf (cfg : Config) (v : RawValue) : Option RawValue := if cfg.echoPresent then some v else none

/-- `respond Ok(VALUE, ECHO)` (R13, R22): the response of a six-byte request on `RSP`. -/
def State.respondOk (value : Bits64) (v : RawValue) (s : State) : State :=
  { s with rsp := some (.ok value (echoOf s.config v)) }

/-- The code of INVALID_ARGUMENT (R170), the only error tag. -/
def invalidArgumentCode : Nat := 1

/-- `raise INVALID_ARGUMENT(n)` (R13, R170, R173), the block's one exception: `Err(1, n)` on `RSP`. It is a response
and no trap: nothing is saved, no mode changes, no handler runs (R177), and there is no return from it (R178; log
entry 8). -/
def State.raiseInvalidArgument (n : Nat) (s : State) : State :=
  { s with rsp := some (.err invalidArgumentCode n) }

/-- The response that `RSP` now holds is delivered as the answer to `r` (R23, R51). -/
def State.deliver (r : Request) (s : State) : State :=
  match s.rsp with
  | none => s
  | some response => { s with answered := s.answered ++ [⟨r, response⟩] }

/-- Reset (R190 to R192): no request stays in flight, `RSP` holds no response, the configuration stays. -/
def State.applyReset (s : State) : State := { s with inFlight := [], rsp := none }

/-- The response delivered for the request of presentation number `id`, if it has been answered (R51). -/
def State.responseOf (s : State) (id : Nat) : Option Response :=
  (s.answered.find? fun a => a.request.id == id).map (·.response)

/-- The end state of a test program (R72): the responses in order of presentation. -/
def State.endState (s : State) : List Response := (List.range s.presented).filterMap s.responseOf

/-- The state from which a program of `DECODE` lines runs (R72): reset, with the outside world presenting one request
after another and letting the block answer each (log entry 6). -/
def State.ofProgram (cfg : Config) (lines : List (List Byte)) : State :=
  { State.resetWith cfg with inputs := lines.flatMap fun bytes => [Input.present bytes, Input.serve] }

end Sys2Proof.Machine
end

