-- ==== Sys2Proof/Machine/Exact.lean ====
section
/-! DEFINITION. Sys2Proof/Machine/Exact.lean: the exact rational arithmetic of 00_scope.md R12, on `Rat` and in terms
of its numerator and denominator, so that a value can be evaluated. No floating-point arithmetic and no rounding
stands here; Sys2Proof/Laws/Exact.lean says what each operation is in the field of rationals. -/

namespace Sys2Proof.Machine

/-- `a × b^e` for an integer exponent. -/
def mulPow (a : Rat) (b : Nat) (e : Int) : Rat :=
  mkRat (a.num * ((b ^ e.toNat : Nat) : Int)) (a.den * b ^ (-e).toNat)

/-- `|r|` (R12). -/
def magnitude (r : Rat) : Rat := mkRat r.num.natAbs r.den

/-- `sgn(r)`: -1, 0 or +1 (R12). -/
def sgn (r : Rat) : Int := r.num.sign

/-- `floor(a)` of a non-negative `a` (R12). -/
def floorNat (a : Rat) : Nat := a.num.natAbs / a.den

/-- The numerator of `a - floor(a)` over the denominator of `a`, for a non-negative `a`. -/
def fracNum (a : Rat) : Nat := a.num.natAbs % a.den

/-- For `a > 0`, the unique integer `k` with `b^k ≤ a < b^(k+1)` (R12). For `a ≥ 1` it is the logarithm of `floor(a)`;
for `a < 1` it is the greatest `-m` with `1/a ≤ b^m`. -/
def ilog (b : Nat) (a : Rat) : Int :=
  if a.den ≤ a.num.natAbs then (Nat.log b (a.num.natAbs / a.den) : Int)
  else -(Nat.clog b ((a.den + a.num.natAbs - 1) / a.num.natAbs) : Int)

/-- `dexp(a)`: the decimal exponent (R12, R144). -/
def dexp (a : Rat) : Int := ilog 10 a

/-- `bexp(a)`: the binary exponent (R12, R147). -/
def bexp (a : Rat) : Int := ilog 2 a

end Sys2Proof.Machine
end

