-- ==== Sys2Proof/Machine/Operands.lean ====
section
/-! DEFINITION. Sys2Proof/Machine/Operands.lean: operand assembly (30_encoding.md R71): the mantissa bit-packer of
41_mantissa_packer.md and the exponent rebias-and-assemble unit of 42_exponent_assemble.md up to RAW64. Every operand
is zero-extended and none of these operations wraps (00_scope.md R10, R11). -/

namespace Sys2Proof.Machine

/-- SIGN (R100): `(b0 >> 7) & 1`. -/
def signBit (b0 : Byte) : BitVec 1 := ((b0 >>> 7) &&& 1).setWidth 1

/-- FRAG7 (R101): `b0 & 0x7F`. -/
def frag7 (b0 : Byte) : BitVec 7 := (b0 &&& 0x7F).setWidth 7

/-- SIG39 (R102): the five parts shifted into place and ORed. -/
def sig39 (frag : BitVec 7) (b1 b2 b3 b4 : Byte) : BitVec 39 :=
  (frag.setWidth 39 <<< 32) ||| (b1.setWidth 39 <<< 24) ||| (b2.setWidth 39 <<< 16)
    ||| (b3.setWidth 39 <<< 8) ||| b4.setWidth 39

/-- FRAC52 (R103): the significand in the high 39 bits of the 52-bit fraction field. -/
def frac52 (sig : BitVec 39) : BitVec 52 := sig.setWidth 52 <<< 13

/-- IEXP11 (R122): the rebias adder, with the literal 894 (R123). -/
def iexp11 (e : BitVec 8) : BitVec 11 := e.setWidth 11 + 894

/-- The assembler (R125): `(S << 63) | (E << 52) | F` in 64 bits. It builds RAW64, and the result of RNE64 (R147). -/
def assemble (s : BitVec 1) (e : BitVec 11) (f : BitVec 52) : Bits64 :=
  (s.setWidth 64 <<< 63) ||| (e.setWidth 64 <<< 52) ||| f.setWidth 64

/-- The 39-bit significand of six bytes (R101, R102). -/
def significand (v : RawValue) : BitVec 39 := sig39 (frag7 v.b0) v.b1 v.b2 v.b3 v.b4

/-- The sign field `S`, bit 63, of a pattern (R65). -/
def signField (p : Bits64) : BitVec 1 := p.extractLsb' 63 1

/-- The exponent field `E`, bits 62..52, of a pattern (R65). -/
def expField (p : Bits64) : BitVec 11 := p.extractLsb' 52 11

/-- The fraction field `F`, bits 51..0, of a pattern (R65). -/
def fracField (p : Bits64) : BitVec 52 := p.extractLsb' 0 52

end Sys2Proof.Machine
end

