-- ==== Sys2Proof/Machine/Assemble.lean ====
section
/-! DEFINITION. Sys2Proof/Machine/Assemble.lean: RAW64 of a request and its reading as a binary64 value
(42_exponent_assemble.md R125, R126; 30_encoding.md R66). -/

namespace Sys2Proof.Machine

/-- RAW64 of six bytes (R84 steps 2 to 7): sign, rebiased exponent, shifted significand. -/
def rawPattern (v : RawValue) : Bits64 :=
  assemble (signBit v.b0) (iexp11 (exp8 v.b5)) (frac52 (significand v))

/-- `(-1)^S × m` for a sign bit and a natural `m`. -/
def signed (s : BitVec 1) (m : Nat) : Int := if s = 1 then -(m : Int) else (m : Int)

/-- XVAL (R126): the normal-number reading `(-1)^S × (2^52 + F) × 2^(E - 1075)`. -/
def xval (p : Bits64) : Rat :=
  mulPow (signed (signField p) (2 ^ 52 + (fracField p).toNat) : Int) 2 ((expField p).toNat - 1075)

/-- How a pattern reads as a binary64 datum (R66). -/
inductive Reading where
  /-- A zero: +0 when the sign bit is 0, -0 when it is 1. -/
  | zero (s : BitVec 1)
  /-- A subnormal or normal number, which is never 0. -/
  | finite (v : Rat)
  | infinity (s : BitVec 1)
  | nan
  deriving DecidableEq, Repr

/-- `binary64_value` on every pattern (R66): normal numbers, signed zeros, subnormals, infinities, NaN. -/
def binary64Value (p : Bits64) : Reading :=
  if expField p = 2047 then (if fracField p = 0 then .infinity (signField p) else .nan)
  else if expField p = 0 then
    if fracField p = 0 then .zero (signField p)
    else .finite (mulPow (signed (signField p) (fracField p).toNat : Int) 2 (-1074))
  else .finite (xval p)

/-- The number a reading stands for: 0 for a zero of either sign, none for an infinity or a NaN. -/
def Reading.value? : Reading → Option Rat
  | .zero _ => some 0
  | .finite v => some v
  | .infinity _ => none
  | .nan => none

end Sys2Proof.Machine
end

