-- ==== Sys2Proof/Machine/Truncation.lean ====
section
/-! DEFINITION. Sys2Proof/Machine/Truncation.lean: the precision-truncation unit of 43_precision_truncation.md: the
digit source, truncation toward zero to 11 significant digits, and the conversion back. -/

namespace Sys2Proof.Machine

/-- TVAL (R145): `sgn(r) × floor(|r| / 10^q) × 10^q` with `q = dexp(|r|) - 10`. -/
def trunc11 (r : Rat) : Rat :=
  let a := magnitude r
  let q := dexp a - 10
  let d := floorNat (mulPow a 10 (-q))
  mulPow (sgn r * (d : Int) : Int) 10 q

/-- The rounding step of R147: `M0` to the nearest integer, a tie to the even one. -/
def roundHalfEven (m0 : Rat) : Nat :=
  let m := floorNat m0
  if m0.den < 2 * fracNum m0 ∨ (2 * fracNum m0 = m0.den ∧ m % 2 = 1) then m + 1 else m

/-- RNE64 (R147), for `2^-1022 ≤ |r| < 2^1024`; no run gives it another `r`, and `InC` asks for the range (log entry 5). -/
def rne64 (r : Rat) : Bits64 :=
  let a := magnitude r
  let j := bexp a
  let m := roundHalfEven (mulPow a 2 (52 - j))
  let (m, j) := if m = 2 ^ 53 then (2 ^ 52, j + 1) else (m, j)
  assemble (if r.num < 0 then 1 else 0) (BitVec.ofNat 11 (j + 1023).toNat) (BitVec.ofNat 52 (m - 2 ^ 52))

/-- The element of `C_p` of R143 nearest to XVAL, if `C_p` is not empty. With `q = dexp(|XVAL|) - p + 1` and
`m = |XVAL| / 10^q`, the `p`-digit decimals next to `|XVAL|` are `floor(m) × 10^q` and `(floor(m) + 1) × 10^q`; the
decimals that RNE64 takes to one pattern lie together around XVAL, so if any is in `C_p` one of these two is, and the
nearest is one of them (log entry 4). -/
def shortestOfLength (p : Nat) (raw : Bits64) : Option Rat :=
  let x := xval raw
  let q := dexp (magnitude x) - p + 1
  let m := mulPow (magnitude x) 10 (-q)
  let d := floorNat m
  let lo := mulPow (sgn x * (d : Int) : Int) 10 q
  let hi := mulPow (sgn x * ((d + 1 : Nat) : Int) : Int) 10 q
  let loBack := rne64 lo == raw
  let hiBack := rne64 hi == raw
  let loFirst := decide (2 * fracNum m < m.den ∨ (2 * fracNum m = m.den ∧ d % 2 = 0))
  if loBack && (!hiBack || loFirst) then some lo
  else if hiBack then some hi
  else none

/-- SHORTEST (R143): the first `p` of 1, 2, 3, ... whose `C_p` is not empty. "The search always stops by p = 17", so
the last clause is never reached (log entry 4). -/
def shortest (raw : Bits64) : Rat :=
  ((List.range 17).findSome? fun i => shortestOfLength (i + 1) raw).getD (xval raw)

/-- DSRC (R141): the number whose digits are truncated. -/
def digitSource (ds : DigitSource) (raw : Bits64) : Rat :=
  match ds with
  | .exact => xval raw
  | .shortest => shortest raw

/-- VALUE of class `DECODE.NORMAL` from RAW64 (R84 step 9): DSRC, TVAL, RNE64. -/
def truncatedValue (ds : DigitSource) (raw : Bits64) : Bits64 := rne64 (trunc11 (digitSource ds raw))

end Sys2Proof.Machine
end

