-- ==== Sys2Proof/Machine/Converter.lean ====
section
/-! DEFINITION. Sys2Proof/Machine/Converter.lean: the meanings of the two operation classes of 40_converter.md. -/

namespace Sys2Proof.Machine

/-- `DECODE.ZERO` (R83): VALUE is the pattern of +0.0, whatever the sign and the significand hold. -/
def execDecodeZero (b0 b1 b2 b3 b4 : Byte) (s : State) : Host.Outcome State Fault Refusal :=
  .next (s.respondOk 0x0000000000000000 ⟨b0, b1, b2, b3, b4, 0⟩)

/-- `DECODE.NORMAL` (R84): RAW64 is built, read, truncated to 11 significant digits and converted back. -/
def execDecodeNormal (b0 b1 b2 b3 b4 b5 : Byte) (s : State) : Host.Outcome State Fault Refusal :=
  let v : RawValue := ⟨b0, b1, b2, b3, b4, b5⟩
  .next (s.respondOk (truncatedValue s.config.digitSource (rawPattern v)) v)

end Sys2Proof.Machine
end

