-- ==== Sys2Proof/Machine/Dispatch.lean ====
section
/-! DEFINITION. Sys2Proof/Machine/Dispatch.lean: one arm per operation class. -/

namespace Sys2Proof.Machine

def exec (i : Instr) (s : State) : Host.Outcome State Fault Refusal :=
  match i with
  | .decodeZero b0 b1 b2 b3 b4 => Sys2Proof.Machine.execDecodeZero b0 b1 b2 b3 b4 s
  | .decodeNormal b0 b1 b2 b3 b4 b5 => Sys2Proof.Machine.execDecodeNormal b0 b1 b2 b3 b4 b5 s

end Sys2Proof.Machine
end

