-- ==== Sys2Proof/Machine/Service.lean ====
section
/-! DEFINITION. Sys2Proof/Machine/Service.lean: how the block answers one request, and what each input from outside
does. A request is processed as one indivisible step (20_memory.md R49). -/

namespace Sys2Proof.Machine

/-- The order of processing of R80 for the bytes of the request taken: the length check (R81), then the class and its
meaning. -/
def process (bytes : List Byte) (s : State) : Host.Outcome State Fault Refusal :=
  match decode bytes with
  | .error (.invalidLength n) => .next (s.raiseInvalidArgument n)
  | .ok i => exec i s

/-- The answer to `r` is delivered when its processing gives a next state. -/
def delivering (r : Request) : Host.Outcome State Fault Refusal → Host.Outcome State Fault Refusal
  | .next s => .next (s.deliver r)
  | .fault f => .fault f
  | .refused f => .refused f

/-- The block's turn: it answers one request in flight, and does nothing when there is none (R23). -/
def serve (s : State) : Host.Outcome State Fault Refusal :=
  match s.take? with
  | none => .next s
  | some (r, t) => delivering r (process r.bytes t)

/-- What one input from outside does. -/
def consume (i : Input) (s : State) : Host.Outcome State Fault Refusal :=
  match i with
  | .present bytes => .next (s.present bytes)
  | .read =>
    match s.rsp with
    | none => .fault .readBeforeResponse
    | some _ => .next s
  | .reset => .next s.applyReset
  | .serve => serve s

/-- The request of a table word placed where it is the next one the block takes: it joins those in flight at the index
that the coming turn chooses. -/
def State.placeNext (bytes : List Byte) (s : State) : State :=
  { s with
    inFlight := s.inFlight.insertIdx (chosenIndex s.turn (s.inFlight.length + 1)) ⟨s.presented, bytes⟩
    presented := s.presented + 1 }

end Sys2Proof.Machine
end

