-- ==== Sys2Proof/Machine/Step.lean ====
section
/-! DEFINITION. Sys2Proof/Machine/Step.lean: one step: the next input from outside, or the block's turn when the
outside world does nothing more. -/

namespace Sys2Proof.Machine

/-- One step. -/
def step (s : State) : Host.Outcome State Fault Refusal :=
  match s.inputs with
  | [] => serve s
  | i :: rest => consume i { s with inputs := rest }

/-- `s` with the six bytes of a table word as the request that the very next step answers: the block has the turn, and
the request stands in flight where that turn takes it (log entry 6). -/
def State.withFetchWord (s : State) (nbits w : Nat) : State :=
  { s.placeNext (tableWordBytes nbits w) with
    inputs := match s.inputs with
      | [] => []
      | i :: rest => .serve :: i :: rest }

end Sys2Proof.Machine
end

