-- ==== Sys2Proof/Safety.lean ====
section
/-! DEFINITION. Sys2Proof/Safety.lean: the terms in which claims are made: runs, the invariant of a run, the response
function of 40_converter.md R89 in one piece, and decimals as 43_precision_truncation.md speaks of them. -/

namespace Sys2Proof.Machine

/-! ## Runs -/

/-- The state after reset with what the outside world will do (R190; log entry 6). -/
def State.startWith (cfg : Config) (inputs : List Input) : State := { State.resetWith cfg with inputs := inputs }

/-- `k` steps of the machine, stopping at the first fault or refusal. -/
def runSteps (k : Nat) (s : State) : Host.Outcome State Fault Refusal := Sys2Proof.core.run k s

/-- It is the block's turn in `s`, it takes the request `r` to answer it, and `t` is the state without `r`. -/
def State.Takes (s : State) (r : Request) (t : State) : Prop :=
  (s.inputs = [] ∧ s.take? = some (r, t)) ∨
    ∃ rest, s.inputs = .serve :: rest ∧ ({ s with inputs := rest } : State).take? = some (r, t)

/-- A safe run of `k` steps: it meets no fault and no refusal. -/
def SafeFor (k : Nat) (s : State) : Prop := ∃ t, runSteps k s = .next t

/-- The byte sequences that a list of inputs presents, in order. -/
def presentations (inputs : List Input) : List (List Byte) :=
  inputs.filterMap fun i =>
    match i with
    | .present bytes => some bytes
    | .read => none
    | .reset => none
    | .serve => none

/-! ## The response function in one piece -/

/-- The pattern that R89 writes out: `(b0[7] << 63) | ((b5 + 894) << 52) | ((b0[6:0] ‖ b1 ‖ b2 ‖ b3 ‖ b4) << 13)`,
every operand a 64-bit number. -/
def patternOf (v : RawValue) : Bits64 :=
  (((v.b0.setWidth 64) >>> 7) <<< 63) ||| ((v.b5.setWidth 64 + 894) <<< 52)
    ||| ((((v.b0 &&& 0x7F).setWidth 64 <<< 32) ||| (v.b1.setWidth 64 <<< 24) ||| (v.b2.setWidth 64 <<< 16)
      ||| (v.b3.setWidth 64 <<< 8) ||| v.b4.setWidth 64) <<< 13)

/-- `decode(bytes)` of R89: the response to a request, a function of its bytes and the configuration alone. -/
def response (cfg : Config) (bytes : List Byte) : Response :=
  match bytes with
  | [b0, b1, b2, b3, b4, b5] =>
    .ok (if b5 = 0 then 0 else rne64 (trunc11 (digitSource cfg.digitSource (patternOf ⟨b0, b1, b2, b3, b4, b5⟩))))
      (if cfg.echoPresent then some ⟨b0, b1, b2, b3, b4, b5⟩ else none)
  | _ => .err 1 bytes.length

/-! ## The invariant of a run -/

/-- What every step keeps: requests are told apart, no request is both in flight and answered, every answer is the
response function of its request's bytes, and `RSP` shows only the response to a request (R23, R51, R86). -/
structure State.Inv (s : State) : Prop where
  idsDistinct : ((s.inFlight ++ s.answered.map (·.request)).map (·.id)).Nodup
  idsPresented : ∀ r ∈ s.inFlight ++ s.answered.map (·.request), r.id < s.presented
  answersRight : ∀ a ∈ s.answered, a.response = response s.config a.request.bytes
  portAnswered : ∀ r, s.rsp = some r → ∃ a ∈ s.answered, a.response = r

/-! ## Decimals -/

/-- `|r|` has at most `n` significant decimal digits. -/
def HasDigits (n : Nat) (r : ℚ) : Prop := ∃ (d : ℕ) (q : ℤ), d < 10 ^ n ∧ |r| = (d : ℚ) * (10 : ℚ) ^ q

/-- `r` lies where R147 gives RNE64: `2^-1022 ≤ |r| < 2^1024`. -/
def InRneRange (r : ℚ) : Prop := (2 : ℚ) ^ (-1022 : ℤ) ≤ |r| ∧ |r| < (2 : ℚ) ^ (1024 : ℤ)

/-- `r` is the element `sgn(XVAL) × d × 10^q` of `C_p` of R143 for the pattern `raw`. "RNE64(r) = RAW64" is said where
R147 gives RNE64: outside, the total function `rne64` cuts its exponent field (log entry 5). -/
def InC (raw : Bits64) (p d : ℕ) (q : ℤ) (r : ℚ) : Prop :=
  1 ≤ p ∧ 10 ^ (p - 1) ≤ d ∧ d < 10 ^ p ∧ r = (sgn (xval raw) : ℚ) * (d : ℚ) * (10 : ℚ) ^ q ∧
    InRneRange r ∧ rne64 r = raw

/-- `r` is SHORTEST(raw) by the definition of R143: in `C_p` for the first non-empty `C_p`, nearest to XVAL there, and
of two equally near the one whose `d` is even. -/
def IsShortest (raw : Bits64) (r : ℚ) : Prop :=
  ∃ (p d : ℕ) (q : ℤ), InC raw p d q r ∧
    (∀ p' < p, ∀ d' q' r', ¬ InC raw p' d' q' r') ∧
    (∀ d' q' r', InC raw p d' q' r' →
      |r - xval raw| ≤ |r' - xval raw| ∧ (|r' - xval raw| = |r - xval raw| → r' ≠ r → Even d))

end Sys2Proof.Machine
end

