-- ==== Sys2Proof/Certificates/Slice0/Obligations.lean ====
section
/-! DEFINITION. Sys2Proof/Certificates/Slice0/Obligations.lean: the statements for the provers. A statement that names
an internal value of R24 (a bit field, RAW64, TVAL) is about the model's units: on the hardware only REQ and RSP can
be seen (10_state.md R25). -/

open Sys2Proof Sys2Proof.Machine

/-! ## Reset, configuration, the response port -/

/-- R190, R191, R7, R8 (the spec's decisions D15, D7, D6): what reset leaves, for every configuration, and the default configuration of `State.reset`. -/
def Obligations.ResetLeavesNoRequestAndNoResponse : Prop :=
  (∀ cfg, (State.resetWith cfg).inFlight = [] ∧ (State.resetWith cfg).rsp = none ∧
    (State.resetWith cfg).answered = [] ∧ (State.resetWith cfg).config = cfg) ∧
  State.reset = State.resetWith { digitSource := .exact, echoPresent := true }

/-- R190 (the spec's decision D15): reset leaves no request in flight and no pending response, the block accepts a request at once, and a request
cut off by reset is answered in no later run. That the answers already delivered stay is log entry 3. -/
def Obligations.ResetCutsOffRequestsInFlight : Prop :=
  ∀ (s : State) (rest : List Input), s.Inv → s.inputs = .reset :: rest →
    (∃ t, step s = .next t ∧ t.inputs = rest ∧ t.inFlight = [] ∧ t.rsp = none ∧ t.config = s.config ∧
      t.answered = s.answered ∧
      ∀ bytes more, rest = .present bytes :: more →
        ∃ u, step t = .next u ∧ u.inputs = more ∧ u.inFlight = [⟨s.presented, bytes⟩]) ∧
    ∀ r ∈ s.inFlight, ∀ k u, runSteps k s = .next u → ∀ a ∈ u.answered, a.request.id ≠ r.id

/-- R192, R29, R33 (the spec's decision D19): no run changes the configuration, across reset or otherwise. -/
def Obligations.ConfigurationIsConstant : Prop :=
  ∀ (k : Nat) (s t : State), runSteps k s = .next t → t.config = s.config

/-- R191 (the spec's decision D15): reading `RSP` before any response is a fault, and no response stands on `RSP` while no
request has been answered. That a read with a response on `RSP` succeeds and leaves the state as it was, `RSP`
included, is the model's choice (log entry 3: the port holds the last response). -/
def Obligations.ReadingAnEmptyResponsePortFaults : Prop :=
  (∀ (s : State) (rest : List Input), s.inputs = .read :: rest →
    (s.rsp = none → step s = .fault .readBeforeResponse) ∧
    (∀ r, s.rsp = some r → step s = .next { s with inputs := rest })) ∧
  ∀ s : State, s.Inv → s.answered = [] → s.rsp = none

/-- R170, R174, R176 to R179: nothing but a premature read stops the machine, and it never refuses. That a late read of
`RSP` never stops it is the model's choice (log entry 3). -/
def Obligations.OnlyAPrematureReadStops : Prop :=
  ∀ s : State, (∀ r, step s ≠ .refused r) ∧
    ((∃ f, step s = .fault f) ↔ (s.rsp = none ∧ ∃ rest, s.inputs = .read :: rest))

/-! ## Requests: presenting, taking, answering -/

/-- R21, R190 (the spec's decisions D2, D15; presentation numbers, and that `RSP`
holds its response, are log entry 3): a request of any byte sequence is accepted and joins those in flight; nothing else changes. -/
def Obligations.PresentingARequestPutsItInFlight : Prop :=
  ∀ (s : State) (bytes : List Byte) (rest : List Input), s.inputs = .present bytes :: rest →
    step s = .next { s with
      inputs := rest, inFlight := s.inFlight ++ [⟨s.presented, bytes⟩], presented := s.presented + 1 }

/-- R23: "No response exists without a request": the block's turn with no request in flight changes nothing.
That `RSP` then goes on holding the last response is the model's choice (log entry 3), as is who has the turn (log entry 6). -/
def Obligations.NoRequestNoResponse : Prop :=
  ∀ (s : State), s.inFlight = [] →
    (s.inputs = [] → step s = .next s) ∧
    (∀ rest, s.inputs = .serve :: rest → step s = .next { s with inputs := rest })

/-- R51 (the spec's decision D13; the free order is log entry 2): on its turn the block takes exactly one of the requests in flight, whichever order it serves them in, and
the other state stays; it takes none exactly when none is in flight. -/
def Obligations.ATurnTakesOneRequestInFlight : Prop :=
  ∀ s : State, (s.take? = none ↔ s.inFlight = []) ∧
    ∀ r t, s.take? = some (r, t) → (r :: t.inFlight).Perm s.inFlight ∧ t.config = s.config ∧ t.inputs = s.inputs ∧
      t.rsp = s.rsp ∧ t.answered = s.answered ∧ t.presented = s.presented

/-- A step runs the decoded instruction (R80): when the request taken decodes to `i`, the step is `exec i` with the
response on `RSP` then delivered as the answer to that request. -/
def Obligations.StepRunsTheDecodedInstruction : Prop :=
  ∀ (s t u : State) (r : Request) (i : Instr), s.Takes r t → decode r.bytes = .ok i → exec i t = .next u →
    ∀ resp, u.rsp = some resp → step s = .next { u with answered := u.answered ++ [⟨r, resp⟩] }

/-- R87, R171: a request of six bytes is answered `Ok` whatever its bytes are, and the error response is the answer
exactly when the length is not six. -/
def Obligations.OkExactlyForSixBytes : Prop :=
  ∀ (s t : State) (r : Request), s.Takes r t →
    (r.bytes.length = 6 → ∃ value echo, step s = .next { t with
      rsp := some (.ok value echo), answered := t.answered ++ [⟨r, .ok value echo⟩] }) ∧
    (r.bytes.length ≠ 6 → ∃ code info, step s = .next { t with
      rsp := some (.err code info), answered := t.answered ++ [⟨r, .err code info⟩] })

/-- The content of the error response, `Err(1, n)` without value or echo, and that nothing else changes: R81, R170, R172,
R173. The code 1 and the info `n` are the spec's own choice (92_eei_decisions.md D3). -/
def Obligations.TheErrorResponseIsCodeOneAndTheLength : Prop :=
  ∀ (s t : State) (r : Request), s.Takes r t → r.bytes.length ≠ 6 →
    step s = .next { t with
      rsp := some (.err 1 r.bytes.length), answered := t.answered ++ [⟨r, .err 1 r.bytes.length⟩] }

/-- R89 (which the spec derives from R81 to R85): the answer to the request taken is `decode(bytes)`, the response function in one piece. -/
def Obligations.EveryAnswerIsTheResponseFunction : Prop :=
  ∀ (s t : State) (r : Request), s.Takes r t →
    step s = .next { t with
      rsp := some (response s.config r.bytes), answered := t.answered ++ [⟨r, response s.config r.bytes⟩] }

/-- R45 and R85 (R85 is the spec's decision D6): a six-byte request is answered with exactly its bytes in order as the echo when `ECHO_PRESENT = true`, in
both classes, and with no echo when it is false; a request of another length is answered without an echo. -/
def Obligations.EchoIsThePresentedBytes : Prop :=
  ∀ (s t : State) (r : Request), s.Takes r t →
    (∀ v : RawValue, r.bytes = v.bytes → ∃ value u, step s = .next u ∧
      u.rsp = some (.ok value (if s.config.echoPresent then some v else none)) ∧
      u.answered = t.answered ++ [⟨r, .ok value (if s.config.echoPresent then some v else none)⟩]) ∧
    (r.bytes.length ≠ 6 → ∃ code info u, step s = .next u ∧ u.rsp = some (.err code info) ∧
      u.answered = t.answered ++ [⟨r, .err code info⟩])

/-! ## The two classes -/

/-- R83: `DECODE.ZERO` completes in every state, with VALUE the pattern of +0.0 and the echo of R85, and changes
nothing but `RSP`. That the zero is +0.0 for either sign bit is the spec's decision D5, the echo its decision D6. -/
def Obligations.DecodeZeroAnswersPositiveZero : Prop :=
  ∀ (b0 b1 b2 b3 b4 : Byte) (s : State),
    exec (.decodeZero b0 b1 b2 b3 b4) s = .next { s with
      rsp := some (.ok 0x0000000000000000 (if s.config.echoPresent then some ⟨b0, b1, b2, b3, b4, 0⟩ else none)) }

/-- R84: `DECODE.NORMAL` completes in every state, with VALUE = RNE64(trunc11(digit_source(RAW64))), and changes nothing
but `RSP`. RAW64 is written out as in R89, which the spec marks derived; the echo is the spec's decision D6, the digit
source its decision D7, and the conversion back its decision D8. -/
def Obligations.DecodeNormalAnswersTheTruncatedValue : Prop :=
  ∀ (b0 b1 b2 b3 b4 b5 : Byte) (s : State), b5 ≠ 0 →
    exec (.decodeNormal b0 b1 b2 b3 b4 b5) s = .next { s with
      rsp := some (.ok (rne64 (trunc11 (digitSource s.config.digitSource (patternOf ⟨b0, b1, b2, b3, b4, b5⟩))))
        (if s.config.echoPresent then some ⟨b0, b1, b2, b3, b4, b5⟩ else none)) }

/-- R50, the frame of both classes: "Processing a request changes nothing except the one response it produces". Only `RSP` changes, and it then holds an `Ok` response. -/
def Obligations.ExecChangesOnlyTheResponsePort : Prop :=
  ∀ (i : Instr) (s t : State), exec i s = .next t →
    t.config = s.config ∧ t.inputs = s.inputs ∧ t.inFlight = s.inFlight ∧ t.answered = s.answered ∧
    t.presented = s.presented ∧ t.turn = s.turn ∧ ∃ value echo, t.rsp = some (.ok value echo)

/-- R91 (which the spec derives from R83 and R148): VALUE is the pattern of +0.0 exactly when the exponent byte is 0; with any other exponent byte it is
neither zero. -/
def Obligations.ZeroValueExactlyForZeroExponent : Prop :=
  ∀ (v : RawValue) (s : State), ∃ value echo,
    exec (decodeSix v) s = .next { s with rsp := some (.ok value echo) } ∧
    (v.b5 = 0 → value = 0x0000000000000000) ∧
    (v.b5 ≠ 0 → value ≠ 0x0000000000000000 ∧ value ≠ 0x8000000000000000)

/-- R90 (which the spec derives from R84 and R149): flipping only `b0[7]` flips bit 63 of VALUE and no other bit when `b5 ≠ 0`, and changes nothing when
`b5 = 0`, under both digit sources. -/
def Obligations.FlippingTheSignBitFlipsOnlyBit63 : Prop :=
  ∀ (v : RawValue) (s : State), ∃ value echo echo',
    exec (decodeSix v) s = .next { s with rsp := some (.ok value echo) } ∧
    exec (decodeSix { v with b0 := v.b0 ^^^ 0x80 }) s = .next { s with
      rsp := some (.ok (if v.b5 = 0 then value else value ^^^ 0x8000000000000000) echo') }

/-! ## Encodings -/

/-- Decode and encode agree, for every well-formed instruction and every value of its operands: as bytes (R60, R82) and
as the table word `W` (R42). -/
def Obligations.DecodingAnEncodingGivesItBack : Prop :=
  ∀ i : Instr, i.wf = true → decode (encode i) = .ok i ∧
    ∀ v : RawValue, encode i = v.bytes → decodeTableWord 48 v.word.toNat = some i

/-- The other direction (R60, R67): what is decoded is well formed and its encoding is the bytes it was read from. -/
def Obligations.EncodingADecodedRequestGivesItBack : Prop :=
  ∀ (bytes : List Byte) (i : Instr), decode bytes = .ok i → i.wf = true ∧ encode i = bytes

/-- R67, R68: the exponent field alone selects the class; the two conditions are disjoint and cover all 2^48 words, so
every word is decoded. -/
def Obligations.ExponentFieldAloneSelectsTheClass : Prop :=
  ∀ w : Nat, w < 2 ^ 48 →
    (w &&& 0x0000000000FF = 0 → ∃ b0 b1 b2 b3 b4, decodeTableWord 48 w = some (.decodeZero b0 b1 b2 b3 b4)) ∧
    (w &&& 0x0000000000FF ≠ 0 → ∃ b0 b1 b2 b3 b4 b5, b5.toNat = w &&& 0x0000000000FF ∧
      decodeTableWord 48 w = some (.decodeNormal b0 b1 b2 b3 b4 b5))

/-- R42 (notation, the spec's decision D9; R41): byte `bi` of the request is `W[47-8i : 40-8i]`, so `b0` is the most significant. -/
def Obligations.TableWordHoldsTheBytesInOrder : Prop :=
  ∀ w : Word48, ∃ v : RawValue, wordBytes w = v.bytes ∧ v.word = w ∧
    v.b0 = w.extractLsb' 40 8 ∧ v.b1 = w.extractLsb' 32 8 ∧ v.b2 = w.extractLsb' 24 8 ∧
    v.b3 = w.extractLsb' 16 8 ∧ v.b4 = w.extractLsb' 8 8 ∧ v.b5 = w.extractLsb' 0 8

/-- Words written out from the encoding string of R60 decode to the instruction they stand for: the anchor request of
95_test_vectors.md T-L1-1, its sign-set version, a word with every operand byte different, and two zeros (R69). -/
def Obligations.WordsOfTheSpecDecode : Prop :=
  decodeTableWord 48 0x000000000081 = some (.decodeNormal 0x00 0x00 0x00 0x00 0x00 0x81) ∧
  decodeTableWord 48 0x800000000081 = some (.decodeNormal 0x80 0x00 0x00 0x00 0x00 0x81) ∧
  decodeTableWord 48 0x490FDAA22182 = some (.decodeNormal 0x49 0x0F 0xDA 0xA2 0x21 0x82) ∧
  decodeTableWord 48 0x000000000000 = some (.decodeZero 0x00 0x00 0x00 0x00 0x00) ∧
  decodeTableWord 48 0x123456789A00 = some (.decodeZero 0x12 0x34 0x56 0x78 0x9A)

/-- `withFetchWord` places a table word so that the very next step answers it (log entry 6), in every state. -/
def Obligations.APlacedWordRunsNext : Prop :=
  ∀ (s : State) (w : Nat) (i : Instr), w < 2 ^ 48 → decodeTableWord 48 w = some i →
    ∃ t u resp, exec i t = .next u ∧ u.rsp = some resp ∧
      t.config = s.config ∧ t.inFlight = s.inFlight ∧ t.answered = s.answered ∧ t.inputs = s.inputs ∧
      step (s.withFetchWord 48 w) =
        .next { u with answered := u.answered ++ [⟨⟨s.presented, tableWordBytes 48 w⟩, resp⟩] }

/-! ## The mantissa bit-packer and the exponent unit -/

/-- R100 to R103: SIGN is `b0[7]`, FRAG7 is `b0[6:0]`, SIG39 is the concatenation of its five parts, and FRAC52 is SIG39
in bits 51..13 over thirteen zero bits. -/
def Obligations.PackerIsFixedWiring : Prop :=
  ∀ (b0 b1 b2 b3 b4 : Byte) (frag : BitVec 7) (sig : BitVec 39),
    signBit b0 = b0.extractLsb' 7 1 ∧ frag7 b0 = b0.extractLsb' 0 7 ∧
    sig39 frag b1 b2 b3 b4 = frag ++ b1 ++ b2 ++ b3 ++ b4 ∧ frac52 sig = sig ++ (0 : BitVec 13)

/-- R104 (which the spec derives from R100 to R103 and R125): every input bit has its one place in RAW64, and bits 12..0 are 0. -/
def Obligations.EveryInputBitHasItsPlaceInTheRawPattern : Prop :=
  ∀ (v : RawValue) (j : Nat),
    (rawPattern v).getLsbD 63 = v.b0.getLsbD 7 ∧
    (j ≤ 6 → (rawPattern v).getLsbD (45 + j) = v.b0.getLsbD j) ∧
    (j ≤ 7 → (rawPattern v).getLsbD (37 + j) = v.b1.getLsbD j ∧ (rawPattern v).getLsbD (29 + j) = v.b2.getLsbD j ∧
      (rawPattern v).getLsbD (21 + j) = v.b3.getLsbD j ∧ (rawPattern v).getLsbD (13 + j) = v.b4.getLsbD j) ∧
    (j ≤ 12 → (rawPattern v).getLsbD j = false)

/-- R120 to R122: EXP8 is `b5`; ZERO is 1 exactly for exponent 0 and selects the class; for any other exponent the rebias
adder adds 894, and the sum is never above 1149, so the addition never wraps. -/
def Obligations.ZeroDetectorAndRebiasAdder : Prop :=
  ∀ v : RawValue, exp8 v.b5 = v.b5 ∧
    (exp8 v.b5 = 0 → zeroBit (exp8 v.b5) = 1 ∧ decodeSix v = .decodeZero v.b0 v.b1 v.b2 v.b3 v.b4) ∧
    (exp8 v.b5 ≠ 0 → zeroBit (exp8 v.b5) = 0 ∧ decodeSix v = .decodeNormal v.b0 v.b1 v.b2 v.b3 v.b4 v.b5 ∧
      (iexp11 (exp8 v.b5)).toNat = v.b5.toNat + 894 ∧ (iexp11 (exp8 v.b5)).toNat ≤ 1149)

/-- R125: the ORs of the assembler are concatenation, the three fields read back, and in every RAW64 the block builds bits
12..0 are 0 and the exponent field is neither 0 nor 2047. -/
def Obligations.AssemblerIsConcatenation : Prop :=
  (∀ (s : BitVec 1) (e : BitVec 11) (f : BitVec 52), assemble s e f = s ++ e ++ f ∧
    signField (assemble s e f) = s ∧ expField (assemble s e f) = e ∧ fracField (assemble s e f) = f) ∧
  ∀ v : RawValue, v.b5 ≠ 0 →
    rawPattern v = assemble (signBit v.b0) (iexp11 (exp8 v.b5)) (frac52 (significand v)) ∧
    (rawPattern v).extractLsb' 0 13 = 0 ∧ expField (rawPattern v) ≠ 0 ∧ expField (rawPattern v) ≠ 2047

/-- R66 (which the spec marks as general knowledge): the reading of every binary64 pattern, in its six cases: normal numbers,
+0, -0, subnormal numbers, infinities, NaN. -/
def Obligations.BinaryReadingOfEveryPattern : Prop :=
  ∀ p : Bits64, let neg : ℚ := if signField p = 1 then -1 else 1
    (1 ≤ (expField p).toNat → (expField p).toNat ≤ 2046 → binary64Value p =
      .finite (neg * (2 ^ 52 + (fracField p).toNat) * (2 : ℚ) ^ (((expField p).toNat : ℤ) - 1075))) ∧
    ((expField p).toNat = 0 → fracField p = 0 → signField p = 0 → binary64Value p = .zero 0) ∧
    ((expField p).toNat = 0 → fracField p = 0 → signField p = 1 → binary64Value p = .zero 1) ∧
    ((expField p).toNat = 0 → fracField p ≠ 0 → binary64Value p =
      .finite (neg * (fracField p).toNat * (2 : ℚ) ^ (-1074 : ℤ))) ∧
    ((expField p).toNat = 2047 → fracField p = 0 → binary64Value p = .infinity (signField p)) ∧
    ((expField p).toNat = 2047 → fracField p ≠ 0 → binary64Value p = .nan)

/-- R126, R127 and R64 (which the spec derives, on its general-knowledge R66): RAW64 of a request with `b5 ≠ 0` reads as exactly the value of its Real48 word,
`(-1)^SIGN × (2^39 + SIG39) × 2^(EXP8 - 168)`. -/
def Obligations.RawPatternReadsAsTheReal48Value : Prop :=
  ∀ v : RawValue, v.b5 ≠ 0 → binary64Value (rawPattern v) = .finite (xval (rawPattern v)) ∧
    xval (rawPattern v) = (if signBit v.b0 = 1 then -1 else 1) * (2 ^ 39 + ((significand v).toNat : ℚ))
      * (2 : ℚ) ^ ((v.b5.toNat : ℤ) - 168)

/-- R124, R128, R129 (which the spec derives): RAW64 of a request with `b5 ≠ 0` is a normal number with its low 13 bits 0, and its sign is SIGN. -/
def Obligations.RawPatternIsANormalNumber : Prop :=
  ∀ v : RawValue, v.b5 ≠ 0 →
    895 ≤ (expField (rawPattern v)).toNat ∧ (expField (rawPattern v)).toNat ≤ 1149 ∧
    (rawPattern v).extractLsb' 0 13 = 0 ∧ (∃ x, binary64Value (rawPattern v) = .finite x ∧ x ≠ 0) ∧
    (xval (rawPattern v) < 0 ↔ signBit v.b0 = 1) ∧ (0 < xval (rawPattern v) ↔ signBit v.b0 = 0)

/-- R130 (which the spec derives from R127): the smallest and the largest magnitude, where they stand, and the distance of consecutive significands. -/
def Obligations.MagnitudeRangeOfTheInputs : Prop :=
  (∀ v : RawValue, v.b5 ≠ 0 → (2 : ℚ) ^ (-128 : ℤ) ≤ |xval (rawPattern v)| ∧
    |xval (rawPattern v)| ≤ (2 ^ 40 - 1) * (2 : ℚ) ^ (87 : ℤ)) ∧
  (∀ v : RawValue, v.b5 = 1 → significand v = 0 → |xval (rawPattern v)| = (2 : ℚ) ^ (-128 : ℤ)) ∧
  (∀ v : RawValue, v.b5 = 255 → (significand v).toNat = 2 ^ 39 - 1 →
    |xval (rawPattern v)| = (2 ^ 40 - 1) * (2 : ℚ) ^ (87 : ℤ)) ∧
  rawPattern ⟨0x00, 0x00, 0x00, 0x00, 0x00, 0x01⟩ = 0x37F0000000000000 ∧
  rawPattern ⟨0x7F, 0xFF, 0xFF, 0xFF, 0xFF, 0xFF⟩ = 0x47DFFFFFFFFFE000 ∧
  ∀ v v' : RawValue, v.b5 ≠ 0 → v'.b5 = v.b5 → (significand v').toNat = (significand v).toNat + 1 →
    |xval (rawPattern v')| - |xval (rawPattern v)| = (2 : ℚ) ^ ((v.b5.toNat : ℤ) - 168)

/-! ## The precision-truncation unit -/

/-- R144, R145: `trunc11` of a nonzero rational: the decimal exponent, the eleven digits `d`, the value
`sgn(r) × d × 10^q`, that the magnitude falls by less than one unit of the eleventh digit, toward zero, that a value of
at most eleven digits stays, and that the exponent of DSRC ranges from -39 to 38. -/
def Obligations.TruncationIsTowardZeroToElevenDigits : Prop :=
  (∀ r : ℚ, r ≠ 0 → ∃ (k : ℤ) (d : ℕ), (10 : ℚ) ^ k ≤ |r| ∧ |r| < (10 : ℚ) ^ (k + 1) ∧
    10 ^ 10 ≤ d ∧ d ≤ 10 ^ 11 - 1 ∧ d = ⌊|r| / (10 : ℚ) ^ (k - 10)⌋₊ ∧
    trunc11 r = (if r < 0 then -1 else 1) * (d : ℚ) * (10 : ℚ) ^ (k - 10) ∧
    0 ≤ |r| - |trunc11 r| ∧ |r| - |trunc11 r| < (10 : ℚ) ^ (k - 10) ∧
    (HasDigits 11 r → trunc11 r = r)) ∧
  ∀ (v : RawValue) (ds : DigitSource) (k : ℤ), v.b5 ≠ 0 → (10 : ℚ) ^ k ≤ |digitSource ds (rawPattern v)| →
    |digitSource ds (rawPattern v)| < (10 : ℚ) ^ (k + 1) → -39 ≤ k ∧ k ≤ 38

/-- "trunc11 and RNE64 are monotone" (R148, which the spec derives), on positive rationals in the range of R147. -/
def Obligations.TruncationAndRoundingAreMonotone : Prop :=
  (∀ r r' : ℚ, 0 < r → r ≤ r' → trunc11 r ≤ trunc11 r') ∧
  ∀ r r' : ℚ, (2 : ℚ) ^ (-1022 : ℤ) ≤ r → r ≤ r' → r' < (2 : ℚ) ^ (1024 : ℤ) → xval (rne64 r) ≤ xval (rne64 r')

/-- R146, R147 (the spec's decision D8): no binary64 number, zeros included, is nearer to `r` than RNE64(r), and if another is equally near, the fraction
field of RNE64(r) is even. Where RNE64 carries out of the last binade, `xval` reads the carried field as 2^1024. -/
def Obligations.RoundingIsToNearestTiesToEven : Prop :=
  ∀ (r x : ℚ) (p : Bits64), (2 : ℚ) ^ (-1022 : ℤ) ≤ |r| → |r| < (2 : ℚ) ^ (1024 : ℤ) →
    (binary64Value p).value? = some x →
    |xval (rne64 r) - r| ≤ |x - r| ∧
    (|x - r| = |xval (rne64 r) - r| → x ≠ xval (rne64 r) → (fracField (rne64 r)).toNat % 2 = 0)

/-- R147 with R66, "RNE64(XVAL) = RAW64" (R151, which the spec derives): RNE64 gives every normal pattern back from its value. -/
def Obligations.RoundingGivesNormalPatternsBack : Prop :=
  ∀ p : Bits64, 1 ≤ (expField p).toNat → (expField p).toNat ≤ 2046 → rne64 (xval p) = p

/-- R143 (general knowledge and the spec's decision D7; log entry 4): what `shortest` computes meets the definition of
SHORTEST for every RAW64 of the block, and the search stops by `p = 17`. The sets `C_p` hold decimals in the range of
R147 only (log entry 5). -/
def Obligations.ShortestMeetsItsDefinition : Prop :=
  ∀ v : RawValue, v.b5 ≠ 0 → IsShortest (rawPattern v) (shortest (rawPattern v)) ∧
    ∃ p d q r, p ≤ 17 ∧ InC (rawPattern v) p d q r

/-- R150 (which the spec derives): a value of at most 11 significant digits is left as it is; so VALUE = RAW64 in mode EXACT when XVAL has at most
11 digits, and in mode SHORTEST when SHORTEST(RAW64) has. -/
def Obligations.ValuesOfElevenDigitsAreUnchanged : Prop :=
  (∀ r : ℚ, HasDigits 11 r → trunc11 r = r) ∧
  ∀ v : RawValue, v.b5 ≠ 0 →
    (HasDigits 11 (xval (rawPattern v)) → truncatedValue .exact (rawPattern v) = rawPattern v) ∧
    (HasDigits 11 (shortest (rawPattern v)) → truncatedValue .shortest (rawPattern v) = rawPattern v)

/-- R154 (which the spec derives): where the two modes differ. -/
def Obligations.DigitSourcesDifferOnlyOnShortDecimals : Prop :=
  (∀ v : RawValue, v.b5 ≠ 0 →
    (¬ HasDigits 11 (shortest (rawPattern v)) →
      trunc11 (shortest (rawPattern v)) = trunc11 (xval (rawPattern v)) ∧
      truncatedValue .shortest (rawPattern v) = truncatedValue .exact (rawPattern v)) ∧
    (HasDigits 11 (shortest (rawPattern v)) →
      truncatedValue .shortest (rawPattern v) = rawPattern v ∧
      truncatedValue .exact (rawPattern v) = rne64 (trunc11 (xval (rawPattern v)))) ∧
    (truncatedValue .exact (rawPattern v) ≠ truncatedValue .shortest (rawPattern v) →
      |xval (rawPattern v)| < |shortest (rawPattern v)|)) ∧
  truncatedValue .exact 0x400221D9F4244000 = 0x400221D9F420D064 ∧
  truncatedValue .shortest 0x400221D9F4244000 = 0x400221D9F4244000

/-- R151 (which the spec derives): in both modes the magnitude never grows, and the relative loss is less than `10^-10 + 2^-53`. -/
def Obligations.ValueIsNeverLargerThanItsInput : Prop :=
  ∀ (v : RawValue) (ds : DigitSource), v.b5 ≠ 0 →
    |xval (truncatedValue ds (rawPattern v))| ≤ |xval (rawPattern v)| ∧
    |xval (rawPattern v)| - |xval (truncatedValue ds (rawPattern v))|
      < |xval (rawPattern v)| * ((10 : ℚ) ^ (-10 : ℤ) + (2 : ℚ) ^ (-53 : ℤ))

/-- R148 (which the spec derives; log entry 5): the bounds on TVAL in each mode, that RNE64 is always applied in its range, and that VALUE is normal with an
exponent field in 894..1149, where 894 occurs. -/
def Obligations.ResultStaysNormalAndInRange : Prop :=
  (∀ (v : RawValue) (k : ℤ), v.b5 ≠ 0 → (10 : ℚ) ^ k ≤ |xval (rawPattern v)| → |xval (rawPattern v)| < (10 : ℚ) ^ (k + 1) →
    (10 : ℚ) ^ k ≤ |trunc11 (xval (rawPattern v))| ∧ |trunc11 (xval (rawPattern v))| ≤ |xval (rawPattern v)|) ∧
  (∀ v : RawValue, v.b5 ≠ 0 →
    (trunc11 (shortest (rawPattern v)) = trunc11 (xval (rawPattern v)) ∨
      trunc11 (shortest (rawPattern v)) = shortest (rawPattern v)) ∧
    |shortest (rawPattern v) - xval (rawPattern v)| ≤ (2 : ℚ) ^ (((expField (rawPattern v)).toNat : ℤ) - 1076)) ∧
  (∀ (v : RawValue) (ds : DigitSource), v.b5 ≠ 0 →
    (2 : ℚ) ^ (-1022 : ℤ) ≤ |trunc11 (digitSource ds (rawPattern v))| ∧
    |trunc11 (digitSource ds (rawPattern v))| < (2 : ℚ) ^ (1024 : ℤ) ∧
    894 ≤ (expField (truncatedValue ds (rawPattern v))).toNat ∧
    (expField (truncatedValue ds (rawPattern v))).toNat ≤ 1149) ∧
  truncatedValue .exact (rawPattern ⟨0x00, 0x00, 0x00, 0x00, 0x00, 0x01⟩) = 0x37EFFFFFFFFD64E6

/-- R149 (which the spec derives): the sign passes through every stage of the unit. -/
def Obligations.SignPassesThroughTheUnit : Prop :=
  (∀ r : ℚ, trunc11 (-r) = -trunc11 r) ∧ (∀ r : ℚ, r ≠ 0 → rne64 (-r) = rne64 r ^^^ 0x8000000000000000) ∧
  (∀ p : Bits64, shortest (p ^^^ 0x8000000000000000) = -shortest p) ∧
  ∀ (v : RawValue) (ds : DigitSource), v.b5 ≠ 0 →
    signField (truncatedValue ds (rawPattern v)) = signBit v.b0 ∧
    (truncatedValue ds (rawPattern { v with b0 := v.b0 ^^^ 0x80 })).extractLsb' 0 63
      = (truncatedValue ds (rawPattern v)).extractLsb' 0 63

/-- R152 (which the spec derives): the shortest decimal that converts back to VALUE has at most 11 significant digits. "Converts
back" is read in the range of R147 (log entry 5). -/
def Obligations.ShortestDecimalOfTheValueHasElevenDigits : Prop :=
  ∀ (v : RawValue) (ds : DigitSource), v.b5 ≠ 0 →
    HasDigits 11 (shortest (truncatedValue ds (rawPattern v))) ∧
    IsShortest (truncatedValue ds (rawPattern v)) (shortest (truncatedValue ds (rawPattern v)))

/-! ## Whole runs -/

/-- Every step keeps the invariant, from every state that has it (R23, R51, R86). -/
def Obligations.EveryStepKeepsTheInvariant : Prop :=
  ∀ s t : State, s.Inv → step s = .next t → t.Inv

/-- The invariant holds right after reset, whatever the configuration and whatever the outside world does next. -/
def Obligations.TheStateAfterResetMeetsTheInvariant : Prop :=
  (∀ cfg inputs, (State.startWith cfg inputs).Inv) ∧ State.reset.Inv

/-- R86 (with R51 and R180): in any two runs from reset with one configuration, whatever else the outside world does and in
whatever order the requests are answered, requests with the same bytes get the same response. -/
def Obligations.EqualRequestsGetEqualResponses : Prop :=
  ∀ (cfg : Config) (inputs inputs' : List Input) (k k' : Nat) (t t' : State),
    runSteps k (State.startWith cfg inputs) = .next t → runSteps k' (State.startWith cfg inputs') = .next t' →
    ∀ a ∈ t.answered, ∀ a' ∈ t'.answered, a.request.bytes = a'.request.bytes → a.response = a'.response

/-- R23: in a run from reset every answer belongs to a request that was presented, with the bytes presented, and no
request has two. -/
def Obligations.EachRequestIsAnsweredAtMostOnce : Prop :=
  ∀ (cfg : Config) (inputs : List Input) (k : Nat) (t : State), runSteps k (State.startWith cfg inputs) = .next t →
    (t.answered.map (·.request.id)).Nodup ∧
    ∀ a ∈ t.answered, (presentations inputs)[a.request.id]? = some a.request.bytes

/-- R196 (the spec's decision D14): every request in flight and every request presented that reset does not cut off is
answered after finitely many steps. Nobody is to read the response port while it is empty (R191); that every read is
allowed once `RSP` holds a response, and stops no run, is the model's choice (log entry 3), and so is that the block
has every turn once the inputs are used up, on which the bound on the steps rests (log entry 6). Reads after a first
answer, when `RSP` starts empty, are in `Obligations.EveryRequestIsAnsweredInARunWithoutFault`. -/
def Obligations.EveryRequestIsAnswered : Prop :=
  ∀ s : State, (∀ i ∈ s.inputs, i ≠ .reset) → (s.rsp = none → ∀ i ∈ s.inputs, i ≠ .read) →
    ∃ t, runSteps (2 * s.inputs.length + s.inFlight.length) s = .next t ∧ t.inputs = [] ∧ t.inFlight = [] ∧
      (∀ r ∈ s.inFlight, ∃ a ∈ t.answered, a.request = r) ∧
      t.presented = s.presented + (presentations s.inputs).length ∧
      ∀ id, s.presented ≤ id → id < t.presented → ∃ a ∈ t.answered, a.request.id = id

/-- R196 (the spec's decision D14), with reads wherever they stop no run: from every state with no reset to come, whatever
reads are to come, a run of that many steps that meets no fault (R191) has answered every request in flight and every
request presented. The bound on the steps rests on log entry 6, and which reads meet no fault on log entry 3. -/
def Obligations.EveryRequestIsAnsweredInARunWithoutFault : Prop :=
  ∀ s t : State, (∀ i ∈ s.inputs, i ≠ .reset) →
    runSteps (2 * s.inputs.length + s.inFlight.length) s = .next t →
    t.inputs = [] ∧ t.inFlight = [] ∧ (∀ r ∈ s.inFlight, ∃ a ∈ t.answered, a.request = r) ∧
    t.presented = s.presented + (presentations s.inputs).length ∧
    ∀ id, s.presented ≤ id → id < t.presented → ∃ a ∈ t.answered, a.request.id = id

/-- R194, R177, R72 (the spec's decisions D14, D17, D12; log entry 6): requests presented and answered one at a time, of any lengths and in any number, are answered with
the response function of each, in order of presentation; an error leaves no trace. -/
def Obligations.RequestsInTurnAreAnsweredInTurn : Prop :=
  ∀ (cfg : Config) (lines : List (List Byte)), ∃ t,
    runSteps (2 * lines.length) (State.ofProgram cfg lines) = .next t ∧ t.inFlight = [] ∧
    t.endState = lines.map (response cfg)
end

