-- ==== Sys2Proof/Laws/Exact.lean ====
section
/-! SUPPORT. Sys2Proof/Laws/Exact.lean: what each operation of Machine/Exact.lean is in the ordered field of rationals.
Later proofs cite these and never unfold the numerators and denominators. -/

namespace Sys2Proof.Machine

theorem mulPow_eq (a : Rat) (b : Nat) (hb : 0 < b) (e : Int) : mulPow a b e = a * (b : ℚ) ^ e := by
  have hb' : (b : ℚ) ≠ 0 := by exact_mod_cast hb.ne'
  have hd : (a.den : ℚ) ≠ 0 := by exact_mod_cast a.den_nz
  have ha : (a.num : ℚ) = a * a.den := (Rat.mul_den_eq_num a).symm
  unfold mulPow
  rw [Rat.mkRat_eq_div]
  push_cast
  rw [ha, div_eq_iff (mul_ne_zero hd (pow_ne_zero _ hb'))]
  obtain ⟨n, rfl | rfl⟩ := e.eq_nat_or_neg
  · simp only [Int.toNat_natCast, Int.toNat_neg_natCast, pow_zero, zpow_natCast]
    ring
  · have : (b : ℚ) ^ n ≠ 0 := pow_ne_zero _ hb'
    simp only [neg_neg, Int.toNat_natCast, Int.toNat_neg_natCast, pow_zero, zpow_neg, zpow_natCast]
    field_simp

theorem magnitude_eq_abs (r : Rat) : magnitude r = |r| := by
  unfold magnitude
  rw [Rat.mkRat_eq_div]
  have hd : (0 : ℚ) < r.den := by exact_mod_cast r.den_pos
  conv_rhs => rw [← Rat.num_div_den r]
  rw [abs_div, abs_of_pos hd]
  push_cast
  simp

theorem sgn_mul_magnitude (r : Rat) : (sgn r : ℚ) * magnitude r = r := by
  rw [magnitude_eq_abs, sgn]
  rcases lt_trichotomy r 0 with h | h | h
  · rw [Int.sign_eq_neg_one_of_neg (Rat.num_neg.2 h), abs_of_neg h]; push_cast; ring
  · subst h; simp
  · rw [Int.sign_eq_one_of_pos (Rat.num_pos.2 h), abs_of_pos h]; push_cast; ring

theorem sgn_of_pos {r : Rat} (h : 0 < r) : sgn r = 1 := Int.sign_eq_one_of_pos (Rat.num_pos.2 h)

theorem sgn_of_neg {r : Rat} (h : r < 0) : sgn r = -1 := Int.sign_eq_neg_one_of_neg (Rat.num_neg.2 h)

theorem sgn_neg (r : Rat) : sgn (-r) = -sgn r := by simp [sgn, Int.sign_neg]

theorem floorNat_eq_floor {a : Rat} (h : 0 ≤ a) : floorNat a = ⌊a⌋₊ := by
  have hn : 0 ≤ a.num := Rat.num_nonneg.2 h
  have : (a : ℚ) = ((a.num.natAbs : ℕ) : ℚ) / (a.den : ℕ) := by
    conv_lhs => rw [← Rat.num_div_den a]
    congr 1
    rw [Nat.cast_natAbs, abs_of_nonneg hn]
  rw [floorNat]
  conv_rhs => rw [this]
  exact (Nat.floor_div_eq_div _ _).symm

/-- The remainder over the denominator is the fractional part. -/
theorem fracNum_div_den {a : Rat} (h : 0 ≤ a) : (fracNum a : ℚ) / a.den = a - floorNat a := by
  have hn : 0 ≤ a.num := Rat.num_nonneg.2 h
  have hd : (a.den : ℚ) ≠ 0 := by exact_mod_cast a.den_nz
  have ha : ((a.num.natAbs : ℕ) : ℚ) = a * a.den := by
    rw [Rat.mul_den_eq_num, Nat.cast_natAbs, abs_of_nonneg hn]
  have hm : ((a.num.natAbs : ℕ) : ℚ) = a.den * floorNat a + fracNum a := by
    unfold floorNat fracNum
    exact_mod_cast (Nat.div_add_mod a.num.natAbs a.den).symm
  rw [div_eq_iff hd, sub_mul, ← ha, hm]
  ring

/-- `ilog` is the logarithm of Mathlib, so it lies between the two powers of R12. -/
theorem ilog_eq_log (b : Nat) {a : Rat} (h : 0 < a) : ilog b a = Int.log b a := by
  have hn : 0 < a.num := Rat.num_pos.2 h
  have hnat : 0 < a.num.natAbs := by omega
  have hd : (0 : ℚ) < a.den := by exact_mod_cast a.den_pos
  have hcast : (a.num : ℚ) = ((a.num.natAbs : ℕ) : ℚ) := by
    rw [Nat.cast_natAbs, abs_of_pos hn]
  have ha : a = ((a.num.natAbs : ℕ) : ℚ) / (a.den : ℚ) := by
    conv_lhs => rw [← Rat.num_div_den a]
    rw [hcast]
  have hle : (a.den ≤ a.num.natAbs) ↔ (1 : ℚ) ≤ a := by
    conv_rhs => rw [ha, le_div_iff₀ hd, one_mul]
    exact_mod_cast Iff.rfl
  unfold ilog Int.log
  by_cases hc : a.den ≤ a.num.natAbs
  · rw [if_pos hc, if_pos (hle.1 hc)]
    congr 2
    exact floorNat_eq_floor h.le
  · rw [if_neg hc, if_neg (fun h' => hc (hle.2 h'))]
    congr 3
    have hinv : a⁻¹ = (a.den : ℚ) / ((a.num.natAbs : ℕ) : ℚ) := by
      conv_lhs => rw [ha, inv_div]
    rw [hinv]
    have hq : (0 : ℚ) < ((a.num.natAbs : ℕ) : ℚ) := by exact_mod_cast hnat
    refine eq_of_forall_ge_iff fun c => ?_
    rw [Nat.ceil_le, div_le_iff₀ hq, ← Nat.lt_add_one_iff, Nat.div_lt_iff_lt_mul hnat]
    rw [show ((c : ℚ) * ((a.num.natAbs : ℕ) : ℚ)) = ((c * a.num.natAbs : ℕ) : ℚ) by push_cast; ring]
    rw [Nat.cast_le, Nat.add_mul, one_mul]
    omega

theorem zpow_ilog_le {b : Nat} (hb : 1 < b) {a : Rat} (h : 0 < a) : (b : ℚ) ^ ilog b a ≤ a := by
  rw [ilog_eq_log b h]; exact Int.zpow_log_le_self hb h

theorem lt_zpow_ilog_add_one {b : Nat} (hb : 1 < b) {a : Rat} (h : 0 < a) : a < (b : ℚ) ^ (ilog b a + 1) := by
  rw [ilog_eq_log b h]; exact Int.lt_zpow_succ_log_self hb a

/-- The exponent is the only one of R12. -/
theorem ilog_unique {b : Nat} (hb : 1 < b) {a : Rat} (h : 0 < a) {k : Int} (hk : (b : ℚ) ^ k ≤ a)
    (hk' : a < (b : ℚ) ^ (k + 1)) : ilog b a = k := by
  rw [ilog_eq_log b h]
  have h1 := (Int.zpow_le_iff_le_log hb h).1 hk
  have h2 := (Int.lt_zpow_iff_log_lt hb h).1 hk'
  omega

theorem ilog_mono {b : Nat} {a a' : Rat} (h : 0 < a) (h' : a ≤ a') : ilog b a ≤ ilog b a' := by
  rw [ilog_eq_log b h, ilog_eq_log b (h.trans_le h')]
  exact Int.log_mono_right h h'

end Sys2Proof.Machine
end

