-- ==== Sys2Proof/Laws/PerInstr.lean ====
section
/-! SUPPORT. Sys2Proof/Laws/PerInstr.lean: statements about every instruction as syntax, one lemma per constructor. -/

namespace Sys2Proof.Laws.SixBytes

/-- An encoding is six bytes long, and its last byte is 0 exactly for class `DECODE.ZERO` when the instruction is well
formed (30_encoding.md R60, R67, R70). -/
def Statement (i : Instr) : Prop :=
  (encode i).length = 6 ∧
    (i.wf = true → ((encode i).getLast? = some 0 ↔ ∃ b0 b1 b2 b3 b4, i = .decodeZero b0 b1 b2 b3 b4))

theorem decodeZero (b0 b1 b2 b3 b4 : Byte) : Statement (.decodeZero b0 b1 b2 b3 b4) :=
  ⟨rfl, fun _ => ⟨fun _ => ⟨b0, b1, b2, b3, b4, rfl⟩, fun _ => rfl⟩⟩

theorem decodeNormal (b0 b1 b2 b3 b4 b5 : Byte) : Statement (.decodeNormal b0 b1 b2 b3 b4 b5) := by
  refine ⟨rfl, fun hwf => ⟨fun h => ?_, fun ⟨_, _, _, _, _, h⟩ => by cases h⟩⟩
  have h0 : b5 = 0 := by simpa [encode] using h
  subst h0
  cases hwf

end Sys2Proof.Laws.SixBytes
end

