-- ==== Sys2Proof/Laws/State.lean ====
section
/-! SUPPORT. Sys2Proof/Laws/State.lean: one lemma per field per update of the state, so that no later proof unfolds a
record update, and what the choice of a request in flight does. -/

namespace Sys2Proof.Machine

@[simp] theorem State.present_config (bytes : List Byte) (s : State) :
    (s.present bytes).config = s.config := rfl
@[simp] theorem State.present_inputs (bytes : List Byte) (s : State) :
    (s.present bytes).inputs = s.inputs := rfl
@[simp] theorem State.present_inFlight (bytes : List Byte) (s : State) :
    (s.present bytes).inFlight = s.inFlight ++ [⟨s.presented, bytes⟩] := rfl
@[simp] theorem State.present_rsp (bytes : List Byte) (s : State) : (s.present bytes).rsp = s.rsp := rfl
@[simp] theorem State.present_answered (bytes : List Byte) (s : State) :
    (s.present bytes).answered = s.answered := rfl
@[simp] theorem State.present_presented (bytes : List Byte) (s : State) :
    (s.present bytes).presented = s.presented + 1 := rfl
@[simp] theorem State.present_turn (bytes : List Byte) (s : State) : (s.present bytes).turn = s.turn := rfl

@[simp] theorem State.respondOk_config (value : Bits64) (v : RawValue) (s : State) :
    (s.respondOk value v).config = s.config := rfl
@[simp] theorem State.respondOk_inputs (value : Bits64) (v : RawValue) (s : State) :
    (s.respondOk value v).inputs = s.inputs := rfl
@[simp] theorem State.respondOk_inFlight (value : Bits64) (v : RawValue) (s : State) :
    (s.respondOk value v).inFlight = s.inFlight := rfl
@[simp] theorem State.respondOk_rsp (value : Bits64) (v : RawValue) (s : State) :
    (s.respondOk value v).rsp = some (.ok value (echoOf s.config v)) := rfl
@[simp] theorem State.respondOk_answered (value : Bits64) (v : RawValue) (s : State) :
    (s.respondOk value v).answered = s.answered := rfl
@[simp] theorem State.respondOk_presented (value : Bits64) (v : RawValue) (s : State) :
    (s.respondOk value v).presented = s.presented := rfl
@[simp] theorem State.respondOk_turn (value : Bits64) (v : RawValue) (s : State) :
    (s.respondOk value v).turn = s.turn := rfl

@[simp] theorem State.raiseInvalidArgument_config (n : Nat) (s : State) :
    (s.raiseInvalidArgument n).config = s.config := rfl
@[simp] theorem State.raiseInvalidArgument_inputs (n : Nat) (s : State) :
    (s.raiseInvalidArgument n).inputs = s.inputs := rfl
@[simp] theorem State.raiseInvalidArgument_inFlight (n : Nat) (s : State) :
    (s.raiseInvalidArgument n).inFlight = s.inFlight := rfl
@[simp] theorem State.raiseInvalidArgument_rsp (n : Nat) (s : State) :
    (s.raiseInvalidArgument n).rsp = some (.err invalidArgumentCode n) := rfl
@[simp] theorem State.raiseInvalidArgument_answered (n : Nat) (s : State) :
    (s.raiseInvalidArgument n).answered = s.answered := rfl
@[simp] theorem State.raiseInvalidArgument_presented (n : Nat) (s : State) :
    (s.raiseInvalidArgument n).presented = s.presented := rfl
@[simp] theorem State.raiseInvalidArgument_turn (n : Nat) (s : State) :
    (s.raiseInvalidArgument n).turn = s.turn := rfl

@[simp] theorem State.applyReset_config (s : State) : (s.applyReset).config = s.config := rfl
@[simp] theorem State.applyReset_inputs (s : State) : (s.applyReset).inputs = s.inputs := rfl
@[simp] theorem State.applyReset_inFlight (s : State) : (s.applyReset).inFlight = [] := rfl
@[simp] theorem State.applyReset_rsp (s : State) : (s.applyReset).rsp = none := rfl
@[simp] theorem State.applyReset_answered (s : State) : (s.applyReset).answered = s.answered := rfl
@[simp] theorem State.applyReset_presented (s : State) : (s.applyReset).presented = s.presented := rfl
@[simp] theorem State.applyReset_turn (s : State) : (s.applyReset).turn = s.turn := rfl

@[simp] theorem State.deliver_config (r : Request) (s : State) : (s.deliver r).config = s.config := by
  unfold State.deliver; split <;> rfl
@[simp] theorem State.deliver_inputs (r : Request) (s : State) : (s.deliver r).inputs = s.inputs := by
  unfold State.deliver; split <;> rfl
@[simp] theorem State.deliver_inFlight (r : Request) (s : State) : (s.deliver r).inFlight = s.inFlight := by
  unfold State.deliver; split <;> rfl
@[simp] theorem State.deliver_rsp (r : Request) (s : State) : (s.deliver r).rsp = s.rsp := by
  unfold State.deliver; split <;> rfl
@[simp] theorem State.deliver_presented (r : Request) (s : State) :
    (s.deliver r).presented = s.presented := by
  unfold State.deliver; split <;> rfl
@[simp] theorem State.deliver_turn (r : Request) (s : State) : (s.deliver r).turn = s.turn := by
  unfold State.deliver; split <;> rfl
theorem State.deliver_of_rsp {r : Request} {s : State} {resp : Response} (h : s.rsp = some resp) :
    s.deliver r = { s with answered := s.answered ++ [⟨r, resp⟩] } := by
  unfold State.deliver; rw [h]

@[simp] theorem State.placeNext_config (bytes : List Byte) (s : State) :
    (s.placeNext bytes).config = s.config := rfl
@[simp] theorem State.placeNext_inputs (bytes : List Byte) (s : State) :
    (s.placeNext bytes).inputs = s.inputs := rfl
@[simp] theorem State.placeNext_inFlight (bytes : List Byte) (s : State) :
    (s.placeNext bytes).inFlight = s.inFlight.insertIdx (chosenIndex s.turn (s.inFlight.length + 1)) ⟨s.presented, bytes⟩ := rfl
@[simp] theorem State.placeNext_rsp (bytes : List Byte) (s : State) :
    (s.placeNext bytes).rsp = s.rsp := rfl
@[simp] theorem State.placeNext_answered (bytes : List Byte) (s : State) :
    (s.placeNext bytes).answered = s.answered := rfl
@[simp] theorem State.placeNext_presented (bytes : List Byte) (s : State) :
    (s.placeNext bytes).presented = s.presented + 1 := rfl
@[simp] theorem State.placeNext_turn (bytes : List Byte) (s : State) :
    (s.placeNext bytes).turn = s.turn := rfl

@[simp] theorem State.resetWith_config (cfg : Config) : (State.resetWith cfg).config = cfg := rfl
@[simp] theorem State.resetWith_inputs (cfg : Config) : (State.resetWith cfg).inputs = [] := rfl
@[simp] theorem State.resetWith_inFlight (cfg : Config) : (State.resetWith cfg).inFlight = [] := rfl
@[simp] theorem State.resetWith_rsp (cfg : Config) : (State.resetWith cfg).rsp = none := rfl
@[simp] theorem State.resetWith_answered (cfg : Config) : (State.resetWith cfg).answered = [] := rfl
@[simp] theorem State.resetWith_presented (cfg : Config) : (State.resetWith cfg).presented = 0 := rfl
@[simp] theorem State.resetWith_turn (cfg : Config) : (State.resetWith cfg).turn = 0 := rfl

/-- The choice is always one of the requests in flight. -/
theorem chosenIndex_lt (turn : Nat) {n : Nat} (h : 0 < n) : chosenIndex turn n < n := by
  match n, h with
  | 1, _ => exact Nat.one_pos
  | n + 2, _ => exact Nat.mod_lt _ (by omega)

/-- What taking a request does: it is the chosen one, and only it leaves those in flight. -/
theorem State.take?_eq_some {s t : State} {r : Request} (h : s.take? = some (r, t)) :
    s.inFlight[chosenIndex s.turn s.inFlight.length]? = some r ∧
    t = { s with
      inFlight := s.inFlight.eraseIdx (chosenIndex s.turn s.inFlight.length)
      turn := s.turn + 1 } := by
  unfold State.take? at h
  split at h
  · cases h
  · next heq => cases h; exact ⟨heq, rfl⟩

theorem State.take?_of_nil {s : State} (h : s.inFlight = []) : s.take? = none := by
  simp [State.take?, h]

/-- A request in flight can always be taken. -/
theorem State.take?_of_ne_nil {s : State} (h : s.inFlight ≠ []) : ∃ r t, s.take? = some (r, t) := by
  have hlt := chosenIndex_lt s.turn (List.length_pos_iff.2 h)
  unfold State.take?
  rw [List.getElem?_eq_getElem hlt]
  exact ⟨_, _, rfl⟩

end Sys2Proof.Machine
end

