-- ==== Sys2Proof/Laws/Step.lean ====
section
/-! SUPPORT. Sys2Proof/Laws/Step.lean: what the processing of a request and one step can do, said once. -/

namespace Sys2Proof.Machine

/-- `exec` always completes and writes only `RSP`. -/
theorem exec_eq (i : Instr) (s : State) :
    ∃ value echo, exec i s = .next { s with rsp := some (.ok value echo) } := by
  cases i with
  | decodeZero => exact ⟨_, _, rfl⟩
  | decodeNormal => exact ⟨_, _, rfl⟩

theorem decode_of_length_ne {bytes : List Byte} (h : bytes.length ≠ 6) :
    decode bytes = .error (.invalidLength bytes.length) := by
  unfold decode
  split
  · simp at h
  · rfl

theorem decode_bytes (v : RawValue) : decode v.bytes = .ok (decodeSix v) := rfl

/-- Six bytes are the bytes of one raw value. -/
theorem exists_rawValue {bytes : List Byte} (h : bytes.length = 6) : ∃ v : RawValue, bytes = v.bytes := by
  match bytes, h with
  | [b0, b1, b2, b3, b4, b5], _ => exact ⟨⟨b0, b1, b2, b3, b4, b5⟩, rfl⟩

/-- Processing a request always completes and writes only `RSP`. -/
theorem process_eq (bytes : List Byte) (s : State) :
    ∃ resp, process bytes s = .next { s with rsp := some resp } := by
  unfold process
  cases decode bytes with
  | error e => cases e with | invalidLength n => exact ⟨_, rfl⟩
  | ok i => obtain ⟨v, e, h⟩ := exec_eq i s; exact ⟨_, h⟩

/-- The block's turn with a request to take: `RSP` holds its response, which is delivered to it. -/
theorem serve_of_take {s t : State} {r : Request} (h : s.take? = some (r, t)) {resp : Response}
    (hp : process r.bytes t = .next { t with rsp := some resp }) :
    serve s = .next { t with rsp := some resp, answered := t.answered ++ [⟨r, resp⟩] } := by
  unfold serve
  rw [h]
  simp only [hp, delivering]
  rw [State.deliver_of_rsp rfl]

/-- The block's turn with nothing in flight. -/
theorem serve_of_nil {s : State} (h : s.inFlight = []) : serve s = .next s := by
  unfold serve; rw [State.take?_of_nil h]

/-- Everything the block's turn can do. -/
theorem serve_cases (s : State) :
    (s.inFlight = [] ∧ serve s = .next s) ∨
    ∃ r t resp, s.take? = some (r, t) ∧ process r.bytes t = .next { t with rsp := some resp } ∧
      serve s = .next { t with rsp := some resp, answered := t.answered ++ [⟨r, resp⟩] } := by
  by_cases h : s.inFlight = []
  · exact .inl ⟨h, serve_of_nil h⟩
  · obtain ⟨r, t, ht⟩ := State.take?_of_ne_nil h
    obtain ⟨resp, hp⟩ := process_eq r.bytes t
    exact .inr ⟨r, t, resp, ht, hp, serve_of_take ht hp⟩

theorem step_of_nil {s : State} (h : s.inputs = []) : step s = serve s := by
  unfold step; rw [h]

theorem step_of_cons {s : State} {i : Input} {rest : List Input} (h : s.inputs = i :: rest) :
    step s = consume i { s with inputs := rest } := by
  unfold step; rw [h]

/-- Everything a step that answers a next state can do: the block's turn, or one input from outside. -/
theorem step_cases {s t : State} (h : step s = .next t) :
    (s.inputs = [] ∧ serve s = .next t) ∨
    (∃ rest, s.inputs = .serve :: rest ∧ serve { s with inputs := rest } = .next t) ∨
    (∃ bytes rest, s.inputs = .present bytes :: rest ∧ t = State.present bytes { s with inputs := rest }) ∨
    (∃ rest resp, s.inputs = .read :: rest ∧ s.rsp = some resp ∧ t = { s with inputs := rest }) ∨
    (∃ rest, s.inputs = .reset :: rest ∧ t = State.applyReset { s with inputs := rest }) := by
  cases hi : s.inputs with
  | nil => exact .inl ⟨rfl, step_of_nil hi ▸ h⟩
  | cons i rest =>
    rw [step_of_cons hi] at h
    cases i with
    | serve => exact .inr (.inl ⟨rest, rfl, h⟩)
    | present bytes => cases h; exact .inr (.inr (.inl ⟨bytes, rest, rfl, rfl⟩))
    | reset => cases h; exact .inr (.inr (.inr (.inr ⟨rest, rfl, rfl⟩)))
    | read =>
      simp only [consume] at h
      split at h
      · cases h
      · next resp hr => cases h; exact .inr (.inr (.inr (.inl ⟨rest, resp, rfl, hr, rfl⟩)))

end Sys2Proof.Machine
end

