-- ==== Sys2Proof/Laws/Truncation.lean ====
section
/-! SUPPORT. Sys2Proof/Laws/Truncation.lean: the fields of an assembled pattern, the value it reads as, and one lemma
each for what trunc11 and RNE64 compute, in the field of rationals. -/

namespace Sys2Proof.Machine

/-! ## Fields of a pattern -/

@[simp] theorem signField_assemble (s : BitVec 1) (e : BitVec 11) (f : BitVec 52) :
    signField (assemble s e f) = s := by
  unfold signField assemble
  ext i hi
  obtain rfl : i = 0 := by omega
  simp

@[simp] theorem expField_assemble (s : BitVec 1) (e : BitVec 11) (f : BitVec 52) :
    expField (assemble s e f) = e := by
  unfold expField assemble
  ext i hi
  have h1 : 52 + i < 63 := by omega
  have h2 : 52 + i < 64 := by omega
  simp [h1, h2, BitVec.getLsbD_eq_getElem hi]

@[simp] theorem fracField_assemble (s : BitVec 1) (e : BitVec 11) (f : BitVec 52) :
    fracField (assemble s e f) = f := by
  unfold fracField assemble
  ext i hi
  have h1 : i < 63 := by omega
  simp [h1, hi]
  omega

/-- A pattern is its three fields assembled. -/
theorem assemble_fields (p : Bits64) : assemble (signField p) (expField p) (fracField p) = p := by
  unfold signField expField fracField assemble
  ext i hi
  rcases Nat.lt_or_ge i 52 with h | h
  · have h1 : i < 63 := by omega
    simp [h, h1, BitVec.getLsbD_eq_getElem hi]
  · rcases Nat.lt_or_ge i 63 with h1 | h1
    · have h2 : ¬ i < 52 := by omega
      have h3 : i - 52 < 11 := by omega
      have h4 : 52 + (i - 52) = i := by omega
      simp [h1, h2, h3, h4, BitVec.getLsbD_eq_getElem hi]
    · obtain rfl : i = 63 := by omega
      simp

/-- Two patterns with the same fields are one. -/
theorem eq_of_fields {p p' : Bits64} (hs : signField p = signField p') (he : expField p = expField p')
    (hf : fracField p = fracField p') : p = p' := by
  rw [← assemble_fields p, ← assemble_fields p', hs, he, hf]

theorem signed_cast (s : BitVec 1) (m : Nat) : ((signed s m : Int) : ℚ) = (if s = 1 then -1 else 1) * (m : ℚ) := by
  unfold signed; split <;> simp

@[simp] theorem Reading.value?_zero (s : BitVec 1) : (Reading.zero s).value? = some 0 := rfl
@[simp] theorem Reading.value?_finite (v : Rat) : (Reading.finite v).value? = some v := rfl
@[simp] theorem Reading.value?_infinity (s : BitVec 1) : (Reading.infinity s).value? = none := rfl
@[simp] theorem Reading.value?_nan : Reading.nan.value? = none := rfl

/-- Only a zero and a finite reading stand for a number. -/
theorem Reading.value?_eq_some {d : Reading} {x : Rat} (h : d.value? = some x) :
    (∃ s, d = .zero s ∧ x = 0) ∨ d = .finite x := by
  cases d with
  | zero s => exact .inl ⟨s, rfl, (Option.some.inj h).symm⟩
  | finite v => exact .inr (congrArg _ (Option.some.inj h))
  | infinity => cases h
  | nan => cases h

/-- The normal-number reading of R66 in the field of rationals. -/
theorem xval_eq (p : Bits64) : xval p = (if signField p = 1 then -1 else 1)
    * (2 ^ 52 + (fracField p).toNat) * (2 : ℚ) ^ (((expField p).toNat : ℤ) - 1075) := by
  unfold xval
  rw [mulPow_eq _ _ (by norm_num), signed_cast]
  push_cast
  rfl

theorem xval_ne_zero (p : Bits64) : xval p ≠ 0 := by
  rw [xval_eq]
  have h1 : ((2 : ℚ) ^ 52 + (fracField p).toNat) ≠ 0 := by positivity
  have h2 : (2 : ℚ) ^ (((expField p).toNat : ℤ) - 1075) ≠ 0 := by positivity
  exact mul_ne_zero (mul_ne_zero (by split <;> norm_num) h1) h2

theorem abs_xval (p : Bits64) : |xval p| = (2 ^ 52 + (fracField p).toNat) *
    (2 : ℚ) ^ (((expField p).toNat : ℤ) - 1075) := by
  rw [xval_eq, abs_mul, abs_mul, abs_of_pos (show (0 : ℚ) < 2 ^ 52 + (fracField p).toNat by positivity),
    abs_of_pos (show (0 : ℚ) < (2 : ℚ) ^ (((expField p).toNat : ℤ) - 1075) by positivity)]
  split <;> simp

/-! ## Truncation and rounding -/

/-- TVAL of R145, in the field of rationals. -/
theorem trunc11_eq (r : ℚ) : trunc11 r =
    (sgn r : ℚ) * (⌊|r| / (10 : ℚ) ^ (dexp (magnitude r) - 10)⌋₊ : ℚ) * (10 : ℚ) ^ (dexp (magnitude r) - 10) := by
  unfold trunc11
  rw [mulPow_eq _ _ (by norm_num), mulPow_eq _ _ (by norm_num), magnitude_eq_abs]
  have h : |r| * ((10 : ℕ) : ℚ) ^ (-(dexp |r| - 10)) = |r| / (10 : ℚ) ^ (dexp |r| - 10) := by
    rw [zpow_neg]; push_cast; rw [div_eq_mul_inv]
  rw [h, floorNat_eq_floor (by positivity)]
  push_cast
  ring

/-- The rounding step of R147: a nearest integer, and the even one of two. -/
theorem roundHalfEven_spec {a : ℚ} (h : 0 ≤ a) :
    |(roundHalfEven a : ℚ) - a| ≤ 1 / 2 ∧
    (|(roundHalfEven a : ℚ) - a| = 1 / 2 → Even (roundHalfEven a)) ∧
    floorNat a ≤ roundHalfEven a ∧ roundHalfEven a ≤ floorNat a + 1 := by
  have hd : (0 : ℚ) < a.den := by exact_mod_cast a.den_pos
  have hf := fracNum_div_den h
  have hlt : fracNum a < a.den := Nat.mod_lt _ a.den_pos
  have hf0 : (0 : ℚ) ≤ a - floorNat a := by rw [← hf]; positivity
  have hf1 : a - floorNat a < 1 := by
    rw [← hf, div_lt_one hd]; exact_mod_cast hlt
  have hlt2 : (a.den < 2 * fracNum a) ↔ 1 / 2 < a - floorNat a := by
    rw [← hf, lt_div_iff₀ hd, div_mul_eq_mul_div, one_mul, div_lt_iff₀ (by norm_num : (0 : ℚ) < 2)]
    rw [show ((fracNum a : ℚ) * 2) = ((2 * fracNum a : ℕ) : ℚ) by push_cast; ring]
    exact_mod_cast Iff.rfl
  have heq2 : (2 * fracNum a = a.den) ↔ a - floorNat a = 1 / 2 := by
    rw [← hf, div_eq_iff hd.ne', div_mul_eq_mul_div, one_mul, eq_div_iff (by norm_num : (2 : ℚ) ≠ 0)]
    rw [show ((fracNum a : ℚ) * 2) = ((2 * fracNum a : ℕ) : ℚ) by push_cast; ring]
    exact_mod_cast Iff.rfl
  unfold roundHalfEven
  simp only [hlt2, heq2]
  split
  · next hc =>
    have hge : 1 / 2 ≤ a - floorNat a := by rcases hc with hc | ⟨hc, -⟩ <;> linarith
    refine ⟨?_, fun heq => ?_, by omega, le_rfl⟩
    · rw [abs_le]; push_cast; constructor <;> linarith
    · push_cast at heq
      rw [abs_of_nonneg (by linarith)] at heq
      rcases hc with hc | ⟨-, hc⟩
      · linarith
      · exact Nat.even_add_one.2 (by rw [Nat.not_even_iff]; exact hc)
  · next hc =>
    push Not at hc
    refine ⟨?_, fun heq => ?_, le_rfl, by omega⟩
    · rw [abs_le]; constructor <;> linarith [hc.1]
    · rw [abs_sub_comm, abs_of_nonneg hf0] at heq
      have := hc.2 heq
      rw [Nat.even_iff]; omega

/-- Everything RNE64 does in its range (R147): the binade `j` of `r`, the rounded significand `m`, the value read back and
the three fields. -/
theorem rne64_spec {r : ℚ} (hlo : (2 : ℚ) ^ (-1022 : ℤ) ≤ |r|) (hhi : |r| < (2 : ℚ) ^ (1024 : ℤ)) :
    ∃ (j : ℤ) (m : ℕ), (2 : ℚ) ^ j ≤ |r| ∧ |r| < (2 : ℚ) ^ (j + 1) ∧ -1022 ≤ j ∧ j ≤ 1023 ∧
      2 ^ 52 ≤ m ∧ m ≤ 2 ^ 53 ∧
      |(m : ℚ) - |r| * (2 : ℚ) ^ (52 - j)| ≤ 1 / 2 ∧ (|(m : ℚ) - |r| * (2 : ℚ) ^ (52 - j)| = 1 / 2 → Even m) ∧
      xval (rne64 r) = (if r < 0 then -1 else 1) * (m : ℚ) * (2 : ℚ) ^ (j - 52) ∧
      signField (rne64 r) = (if r < 0 then 1 else 0) ∧
      ((expField (rne64 r)).toNat : ℤ) = (if m = 2 ^ 53 then j + 1024 else j + 1023) ∧
      (fracField (rne64 r)).toNat = (if m = 2 ^ 53 then 0 else m - 2 ^ 52) := by
  have hpos : 0 < |r| := lt_of_lt_of_le (by positivity) hlo
  set j := bexp (magnitude r) with hj
  set m := roundHalfEven (mulPow (magnitude r) 2 (52 - j)) with hm
  have hjle : (2 : ℚ) ^ j ≤ |r| := by
    have := zpow_ilog_le (b := 2) (by norm_num) hpos
    rw [hj, magnitude_eq_abs]; exact_mod_cast this
  have hjlt : |r| < (2 : ℚ) ^ (j + 1) := by
    have := lt_zpow_ilog_add_one (b := 2) (by norm_num) hpos
    rw [hj, magnitude_eq_abs]; exact_mod_cast this
  have hj1 : -1022 ≤ j := by
    have := (zpow_lt_zpow_iff_right₀ (by norm_num : (1 : ℚ) < 2)).1 (hlo.trans_lt hjlt)
    omega
  have hj2 : j ≤ 1023 := by
    have := (zpow_lt_zpow_iff_right₀ (by norm_num : (1 : ℚ) < 2)).1 (hjle.trans_lt hhi)
    omega
  have hm0 : mulPow (magnitude r) 2 (52 - j) = |r| * (2 : ℚ) ^ (52 - j) := by
    rw [mulPow_eq _ _ (by norm_num), magnitude_eq_abs]; push_cast; rfl
  have hz : (0 : ℚ) < (2 : ℚ) ^ (52 - j) := by positivity
  have hlow : (2 : ℚ) ^ 52 ≤ |r| * (2 : ℚ) ^ (52 - j) := by
    calc (2 : ℚ) ^ 52 = (2 : ℚ) ^ j * (2 : ℚ) ^ (52 - j) := by
          rw [← zpow_add₀ (by norm_num)]; norm_num
      _ ≤ _ := by gcongr
  have hupp : |r| * (2 : ℚ) ^ (52 - j) < (2 : ℚ) ^ 53 := by
    calc |r| * (2 : ℚ) ^ (52 - j) < (2 : ℚ) ^ (j + 1) * (2 : ℚ) ^ (52 - j) := by gcongr
      _ = (2 : ℚ) ^ 53 := by rw [← zpow_add₀ (by norm_num)]; rw [show j + 1 + (52 - j) = (53 : ℕ) by ring, zpow_natCast]
  have hnn : (0 : ℚ) ≤ |r| * (2 : ℚ) ^ (52 - j) := by positivity
  obtain ⟨hr1, hr2, hr3, hr4⟩ := roundHalfEven_spec hnn
  rw [← hm0, ← hm] at hr1 hr2 hr3 hr4
  have hfl : 2 ^ 52 ≤ floorNat (mulPow (magnitude r) 2 (52 - j)) := by
    rw [hm0, floorNat_eq_floor hnn]; exact Nat.le_floor (by exact_mod_cast hlow)
  have hfu : floorNat (mulPow (magnitude r) 2 (52 - j)) < 2 ^ 53 := by
    rw [hm0, floorNat_eq_floor hnn]; exact (Nat.floor_lt hnn).2 (by exact_mod_cast hupp)
  have hm1 : 2 ^ 52 ≤ m := hfl.trans hr3
  have hm2 : m ≤ 2 ^ 53 := by omega
  have hneg : (r.num < 0) ↔ r < 0 := Rat.num_neg
  refine ⟨j, m, hjle, hjlt, hj1, hj2, hm1, hm2, by rw [← hm0]; exact hr1, by rw [← hm0]; exact hr2, ?_⟩
  by_cases hc : m = 2 ^ 53
  · have hrne : rne64 r = assemble (if r < 0 then 1 else 0) (BitVec.ofNat 11 (j + 1 + 1023).toNat)
        (BitVec.ofNat 52 (2 ^ 52 - 2 ^ 52)) := by
      unfold rne64
      simp only [← hj, ← hm, hneg, if_pos hc]
    have he : ((BitVec.ofNat 11 (j + 1 + 1023).toNat).toNat : ℤ) = j + 1024 := by
      rw [BitVec.toNat_ofNat, Nat.mod_eq_of_lt (by omega)]; omega
    rw [xval_eq, hrne, signField_assemble, expField_assemble, fracField_assemble, he, if_pos hc, if_pos hc]
    refine ⟨?_, rfl, rfl, by simp⟩
    rw [hc]
    have e1 : (2 : ℚ) ^ (j + 1024 - 1075) = (2 : ℚ) ^ (j - 52) * 2 := by
      rw [show j + 1024 - 1075 = (j - 52) + 1 by ring, zpow_add_one₀ (by norm_num)]
    rw [e1]
    by_cases hr : r < 0 <;> simp [hr] <;> ring
  · have hrne : rne64 r = assemble (if r < 0 then 1 else 0) (BitVec.ofNat 11 (j + 1023).toNat)
        (BitVec.ofNat 52 (m - 2 ^ 52)) := by
      unfold rne64
      simp only [← hj, ← hm, hneg, if_neg hc]
    have he : ((BitVec.ofNat 11 (j + 1023).toNat).toNat : ℤ) = j + 1023 := by
      rw [BitVec.toNat_ofNat, Nat.mod_eq_of_lt (by omega)]; omega
    have hfr : (BitVec.ofNat 52 (m - 2 ^ 52)).toNat = m - 2 ^ 52 := by
      rw [BitVec.toNat_ofNat, Nat.mod_eq_of_lt (by omega)]
    rw [xval_eq, hrne, signField_assemble, expField_assemble, fracField_assemble, he, hfr, if_neg hc, if_neg hc]
    refine ⟨?_, rfl, rfl, rfl⟩
    have hcast : (2 : ℚ) ^ 52 + ((m - 2 ^ 52 : ℕ) : ℚ) = m := by
      rw [Nat.cast_sub hm1]; push_cast; ring
    rw [hcast, show j + 1023 - 1075 = j - 52 by ring]
    by_cases hr : r < 0 <;> simp [hr]

end Sys2Proof.Machine
end

