-- ==== Sys2Proof/Tests/Slice0.lean ====
section
/-! SUPPORT. Sys2Proof/Tests/Slice0.lean: the model's own tests. Expected results are the vectors and worked examples of
95_test_vectors.md and the tables of 41_mantissa_packer.md and 42_exponent_assemble.md, never the model's own answers.
Second half: for every statement with hypotheses a concrete case that meets them (`witness_...`). -/

namespace Sys2Proof.Tests

open Sys2Proof.Machine

/-! ## Well-formedness and decoding -/

/-- The check refuses `DECODE.NORMAL` with exponent byte 0 (R67: the row's constraint `e != 0`). -/
theorem test_wf_refuses_normal_with_zero_exponent : Instr.wf (.decodeNormal 0x12 0x34 0x56 0x78 0x9A 0x00) = false := by
  decide

theorem test_wf_accepts_every_zero_and_the_least_exponent :
    Instr.wf (.decodeZero 0xFF 0xFF 0xFF 0xFF 0xFF) = true ∧ Instr.wf (.decodeNormal 0 0 0 0 0 0x01) = true := by decide

/-- R60 with s = 1, f = 0x123456789A (39 bits), e = 0x00: `1 0010010 00110100 01010110 01111000 10011010 00000000`. -/
theorem test_decode_zero_from_the_encoding_string :
    decodeTableWord 48 0b100100100011010001010110011110001001101000000000 =
      some (.decodeZero 0x92 0x34 0x56 0x78 0x9A) := by decide

/-- R60 with s = 1, f = 0x490FDAA221, e = 0x82: `1 1001001 00001111 11011010 10100010 00100001 10000010`. -/
theorem test_decode_normal_from_the_encoding_string :
    decodeTableWord 48 0b110010010000111111011010101000100010000110000010 =
      some (.decodeNormal 0xC9 0x0F 0xDA 0xA2 0x21 0x82) := by decide

/-- A row wider than a request is no row (R70). -/
theorem test_decode_refuses_wider_words : decodeTableWord 56 0 = none := by decide

/-- R81: five and seven bytes and the empty request are rejected by name. -/
theorem test_decode_rejects_other_lengths :
    decode [0, 0, 0, 0, 0x81] = .error (.invalidLength 5) ∧ decode [0, 0, 0, 0, 0, 0x81, 0] = .error (.invalidLength 7) ∧
      decode [] = .error (.invalidLength 0) := ⟨rfl, rfl, rfl⟩

/-! ## The units -/

/-- Vectors PK-3 to PK-8 (R105): `b0..b4`, SIGN, SIG39, FRAC52. -/
def packerVectors : List (RawValue × BitVec 1 × BitVec 39 × BitVec 52) :=
  [(⟨0x7F, 0xFF, 0xFF, 0xFF, 0xFF, 0⟩, 0, 0x7FFFFFFFFF, 0xFFFFFFFFFE000),
   (⟨0xFF, 0xFF, 0xFF, 0xFF, 0xFF, 0⟩, 1, 0x7FFFFFFFFF, 0xFFFFFFFFFE000),
   (⟨0x40, 0x00, 0x00, 0x00, 0x00, 0⟩, 0, 0x4000000000, 0x8000000000000),
   (⟨0x00, 0x00, 0x00, 0x00, 0x01, 0⟩, 0, 0x0000000001, 0x0000000002000),
   (⟨0x01, 0x02, 0x03, 0x04, 0x05, 0⟩, 0, 0x0102030405, 0x020406080A000),
   (⟨0xC5, 0x00, 0x00, 0x00, 0x00, 0⟩, 1, 0x4500000000, 0x8A00000000000)]

theorem test_packer_vectors : packerVectors.all (fun (v, s, sig, f) =>
    signBit v.b0 == s && significand v == sig && frac52 (significand v) == f) = true := by decide

/-- Vectors RB-1 to RB-8 (R122, R125): the request and RAW64. -/
def rawVectors : List (RawValue × Bits64) :=
  [(⟨0x00, 0x00, 0x00, 0x00, 0x00, 0x01⟩, 0x37F0000000000000), (⟨0x00, 0x00, 0x00, 0x00, 0x00, 0x81⟩, 0x3FF0000000000000),
   (⟨0x00, 0x00, 0x00, 0x00, 0x00, 0x82⟩, 0x4000000000000000), (⟨0x00, 0x00, 0x00, 0x00, 0x00, 0xFF⟩, 0x47D0000000000000),
   (⟨0x7F, 0xFF, 0xFF, 0xFF, 0xFF, 0xFF⟩, 0x47DFFFFFFFFFE000), (⟨0x00, 0x00, 0x00, 0x00, 0x00, 0x80⟩, 0x3FE0000000000000),
   (⟨0x01, 0x02, 0x03, 0x04, 0x05, 0x81⟩, 0x3FF020406080A000), (⟨0xC0, 0x00, 0x00, 0x00, 0x00, 0x82⟩, 0xC008000000000000)]

theorem test_raw_vectors : rawVectors.all (fun (v, raw) => rawPattern v == raw) = true := by decide

/-- RB-5 and RB-8: XVAL exactly. -/
theorem test_xval_vectors : xval 0x47DFFFFFFFFFE000 = 170141183460314489226776631181521715200 ∧
    xval 0xC008000000000000 = -3 := by decide

/-- R66: +0 and -0 are told apart, and stand for the number 0. -/
theorem test_signed_zeros : binary64Value 0x0000000000000000 = .zero 0 ∧ binary64Value 0x8000000000000000 = .zero 1 ∧
    (binary64Value 0x8000000000000000).value? = some 0 := by decide

/-! ## One step -/

/-- Reset with one request in flight. -/
def serving (cfg : Config) (bytes : List Byte) : State :=
  { State.resetWith cfg with inFlight := [⟨0, bytes⟩], presented := 1 }

/-- The response that the next step puts on `RSP`. -/
def answerOf (cfg : Config) (bytes : List Byte) : Option Response :=
  match step (serving cfg bytes) with
  | .next s => s.rsp
  | .fault _ => none
  | .refused _ => none

def exactCfg : Config := ⟨.exact, true⟩
def shortestCfg : Config := ⟨.shortest, true⟩

/-- Vectors Z-2, Z-3 and Z-4: +0.0 with the echo. -/
theorem test_zero_class : [(⟨0x80, 0, 0, 0, 0, 0⟩ : RawValue), ⟨0xFF, 0xFF, 0xFF, 0xFF, 0xFF, 0⟩,
    ⟨0x12, 0x34, 0x56, 0x78, 0x9A, 0⟩].all (fun v =>
      answerOf exactCfg v.bytes == some (.ok 0x0000000000000000 (some v))) = true := by decide

/-- Vector E-1: `ECHO_PRESENT = false`. -/
theorem test_no_echo : answerOf ⟨.exact, false⟩ [0, 0, 0, 0, 0, 0x81] = some (.ok 0x3FF0000000000000 none) ∧
    answerOf ⟨.exact, false⟩ [0x80, 0, 0, 0, 0, 0] = some (.ok 0 none) := by decide

/-- Vectors LEN-1 to LEN-4. -/
theorem test_length_check : answerOf exactCfg [] = some (.err 1 0) ∧
    answerOf exactCfg [0, 0, 0, 0, 0x81] = some (.err 1 5) ∧
    answerOf exactCfg [0, 0, 0, 0, 0, 0x81, 0] = some (.err 1 7) ∧ answerOf exactCfg [0x81] = some (.err 1 1) := by decide

/-- A table word of each class, placed after reset, is what the very next step answers (T-L1-1, Z-4). -/
theorem test_first_step_after_reset :
    (match step (State.reset.withFetchWord 48 0x000000000081) with
      | .next s => s.rsp
      | .fault _ => none
      | .refused _ => none) = some (.ok 0x3FF0000000000000 (some ⟨0, 0, 0, 0, 0, 0x81⟩)) ∧
    (match step (State.reset.withFetchWord 48 0x123456789A00) with
      | .next s => s.rsp
      | .fault _ => none
      | .refused _ => none) = some (.ok 0x0000000000000000 (some ⟨0x12, 0x34, 0x56, 0x78, 0x9A, 0⟩)) := by decide

/-- Requests and VALUEs that hold under both digit sources: T-L1-1, T-L1-2, TR-6 to TR-13, TR-15, TR-18, TR-19, TR-21,
TR-22, TR-24, TR-28, T-TIE-1, T-TIE-2. -/
def normalVectors : List (RawValue × Bits64) :=
  [(⟨0x00, 0x00, 0x00, 0x00, 0x00, 0x81⟩, 0x3FF0000000000000), (⟨0x80, 0x00, 0x00, 0x00, 0x00, 0x81⟩, 0xBFF0000000000000),
   (⟨0xC0, 0x00, 0x00, 0x00, 0x00, 0x82⟩, 0xC008000000000000), (⟨0x00, 0x00, 0x00, 0x00, 0x00, 0xA8⟩, 0x425FFFFFFFFE0000),
   (⟨0x00, 0x00, 0x00, 0x00, 0x01, 0xA8⟩, 0x425FFFFFFFFE0000), (⟨0x80, 0x00, 0x00, 0x00, 0x01, 0xA8⟩, 0xC25FFFFFFFFE0000),
   (⟨0x7F, 0xFF, 0xFF, 0xFF, 0xFF, 0xA8⟩, 0x426FFFFFFFF68000), (⟨0x00, 0x00, 0x00, 0x00, 0x00, 0x01⟩, 0x37EFFFFFFFFD64E6),
   (⟨0x80, 0x00, 0x00, 0x00, 0x00, 0x01⟩, 0xB7EFFFFFFFFD64E6), (⟨0x7F, 0xFF, 0xFF, 0xFF, 0xFF, 0xFF⟩, 0x47DFFFFFFFFF9EF7)] ++
  [(⟨0x00, 0x00, 0x00, 0x00, 0x00, 0xFF⟩, 0x47CFFFFFFFFF9EF7), (⟨0x01, 0x02, 0x03, 0x04, 0x05, 0x81⟩, 0x3FF02040607CC953),
   (⟨0x49, 0x0F, 0xDA, 0xA2, 0x21, 0x82⟩, 0x400921FB54411744), (⟨0x4C, 0xCC, 0xCC, 0xCC, 0xCC, 0x7D⟩, 0x3FB9999999988020),
   (⟨0x4C, 0xCC, 0xCC, 0xCC, 0xCD, 0x7D⟩, 0x3FB999999999999A), (⟨0x2A, 0xAA, 0xAA, 0xAA, 0xAA, 0x7F⟩, 0x3FD5555555546AC5),
   (⟨0x40, 0xE6, 0xB7, 0x31, 0x8F, 0x8E⟩, 0x40C81CD6E6299525), (⟨0x00, 0x00, 0x00, 0x00, 0x15, 0xBE⟩, 0x43C0000000029276),
   (⟨0x00, 0x00, 0x00, 0x00, 0x45, 0xBE⟩, 0x43C0000000088858)]

/-- T-DS-1 to T-DS-3: the request, VALUE under EXACT and VALUE under SHORTEST. -/
def digitSourceVectors : List (RawValue × Bits64 × Bits64) :=
  [(⟨0x11, 0x0E, 0xCF, 0xA1, 0x22, 0x82⟩, 0x400221D9F420D064, 0x400221D9F4244000),
   (⟨0x05, 0x44, 0xEF, 0xA2, 0xD1, 0x83⟩, 0x4010A89DF4586832, 0x4010A89DF45A2000),
   (⟨0x91, 0x0E, 0xCF, 0xA1, 0x22, 0x82⟩, 0xC00221D9F420D064, 0xC00221D9F4244000)]

theorem test_normal_class_exact :
    normalVectors.all (fun (v, value) => answerOf exactCfg v.bytes == some (.ok value (some v))) = true ∧
    digitSourceVectors.all (fun (v, value, _) => answerOf exactCfg v.bytes == some (.ok value (some v))) = true := by
  decide +kernel

theorem test_normal_class_shortest :
    normalVectors.all (fun (v, value) => answerOf shortestCfg v.bytes == some (.ok value (some v))) = true ∧
    digitSourceVectors.all (fun (v, _, value) => answerOf shortestCfg v.bytes == some (.ok value (some v))) = true := by
  decide +kernel

/-- R143 on T-DS-1 (95_test_vectors.md section 2.5): the spec's shortest decimal, 2.2665289949, is in `C_11` of its RAW64. -/
theorem test_spec_shortest_is_in_its_set :
    InC 0x400221D9F4244000 11 22665289949 (-10) (22665289949 / 10000000000) := by
  have hs : sgn (xval 0x400221D9F4244000) = 1 := by decide +kernel
  refine ⟨by norm_num, by norm_num, by norm_num, by rw [hs]; norm_num, ⟨?_, ?_⟩, by decide +kernel⟩
  · exact (zpow_le_one_of_nonpos₀ (by norm_num) (by norm_num)).trans (by norm_num [abs_of_pos])
  · calc |(22665289949 / 10000000000 : ℚ)| < 2 ^ (2 : ℤ) := by norm_num [abs_of_pos]
      _ ≤ 2 ^ (1024 : ℤ) := zpow_le_zpow_right₀ (by norm_num) (by norm_num)

/-- R147's range in R143: `2^1025` is in no `C_p`, whatever the total `rne64` makes of it (log entry 5). -/
theorem test_out_of_range_is_in_no_set (raw : Bits64) (p d : ℕ) (q : ℤ) : ¬ InC raw p d q ((2 : ℚ) ^ (1025 : ℤ)) := by
  rintro ⟨-, -, -, -, ⟨-, h⟩, -⟩
  rw [abs_of_pos (by positivity)] at h
  exact absurd h (not_lt.2 (zpow_le_zpow_right₀ (by norm_num) (by norm_num)))

/-! ## Witnesses: each meets all hypotheses of the statement it names -/

/-- Reset with one answered request, one in flight, and the outside world about to reset. -/
def aboutToReset : State :=
  { State.resetWith exactCfg with
    inputs := [.reset, .present [0x81]], inFlight := [⟨1, [0, 0, 0, 0, 0, 0x81]⟩], presented := 2
    rsp := some (.err 1 0), answered := [⟨⟨0, []⟩, .err 1 0⟩] }

theorem aboutToReset_inv : aboutToReset.Inv where
  idsDistinct := by decide
  idsPresented := by decide
  answersRight := by
    intro a ha
    have : a = ⟨⟨0, []⟩, .err 1 0⟩ := by simpa [aboutToReset] using ha
    subst this; rfl
  portAnswered := by
    intro r hr
    exact ⟨⟨⟨0, []⟩, .err 1 0⟩, by simp [aboutToReset], by simpa [aboutToReset] using hr⟩

/-- ResetCutsOffRequestsInFlight, both parts: a request is in flight, another is presented after reset, and runs of 0
and of 3 steps exist. -/
theorem witness_reset : aboutToReset.Inv ∧ aboutToReset.inputs = .reset :: [.present [0x81]] ∧
    (⟨1, [0, 0, 0, 0, 0, 0x81]⟩ : Request) ∈ aboutToReset.inFlight ∧
    (∃ u, runSteps 0 aboutToReset = .next u ∧ u.answered ≠ []) ∧
    ∃ u, runSteps 3 aboutToReset = .next u ∧ u.answered.length = 2 :=
  ⟨aboutToReset_inv, rfl, by simp [aboutToReset], ⟨_, rfl, by simp [aboutToReset]⟩, ⟨_, rfl, rfl⟩⟩

/-- ConfigurationIsConstant, EveryStepKeepsTheInvariant: a run of one step from a state with the invariant. -/
theorem witness_step : aboutToReset.Inv ∧ (∃ t, step aboutToReset = .next t) ∧ ∃ t, runSteps 1 aboutToReset = .next t :=
  ⟨aboutToReset_inv, ⟨_, rfl⟩, ⟨_, rfl⟩⟩

/-- ReadingAnEmptyResponsePortFaults: both cases of the port, and a state with the invariant and no answer. -/
theorem witness_read : (∃ s : State, s.inputs = .read :: [] ∧ s.rsp = none) ∧
    (∃ (s : State) (r : Response), s.inputs = .read :: [] ∧ s.rsp = some r) ∧
    ∃ s : State, s.Inv ∧ s.answered = [] :=
  ⟨⟨State.startWith exactCfg [.read], rfl, rfl⟩,
   ⟨{ aboutToReset with inputs := [.read] }, .err 1 0, rfl, rfl⟩,
   ⟨State.reset, ⟨by decide, by decide, by simp [State.reset, State.resetWith], by simp [State.reset, State.resetWith]⟩, rfl⟩⟩

/-- PresentingARequestPutsItInFlight, at length 0. -/
theorem witness_present : (State.startWith exactCfg [.present []]).inputs = .present [] :: [] := rfl

/-- NoRequestNoResponse, both clauses. -/
theorem witness_idle : (State.reset.inFlight = [] ∧ State.reset.inputs = []) ∧
    (State.startWith exactCfg [.serve]).inFlight = [] ∧ (State.startWith exactCfg [.serve]).inputs = .serve :: [] :=
  ⟨⟨rfl, rfl⟩, rfl, rfl⟩

/-- ATurnTakesOneRequestInFlight: a turn with a request to take. -/
theorem witness_turn : ∃ r t, (serving exactCfg []).take? = some (r, t) := ⟨_, _, rfl⟩

/-- The block takes the one request in flight, whether the outside world has nothing more to do or lets it. -/
theorem takes_serving (cfg : Config) (bytes : List Byte) :
    (∃ t, (serving cfg bytes).Takes ⟨0, bytes⟩ t) ∧
    ∃ t, ({ serving cfg bytes with inputs := [.serve] } : State).Takes ⟨0, bytes⟩ t :=
  ⟨⟨_, .inl ⟨rfl, rfl⟩⟩, ⟨_, .inr ⟨[], rfl, rfl⟩⟩⟩

/-- StepRunsTheDecodedInstruction: for an instruction of each class. -/
theorem witness_step_runs : (∃ t, (serving exactCfg [1, 2, 3, 4, 5, 0]).Takes ⟨0, [1, 2, 3, 4, 5, 0]⟩ t ∧
      ∃ i u resp, decode [1, 2, 3, 4, 5, 0] = .ok i ∧ exec i t = .next u ∧ u.rsp = some resp) ∧
    ∃ t, (serving exactCfg [1, 2, 3, 4, 5, 1]).Takes ⟨0, [1, 2, 3, 4, 5, 1]⟩ t ∧
      ∃ i u resp, decode [1, 2, 3, 4, 5, 1] = .ok i ∧ exec i t = .next u ∧ u.rsp = some resp :=
  ⟨⟨_, .inl ⟨rfl, rfl⟩, _, _, _, rfl, rfl, rfl⟩, ⟨_, .inl ⟨rfl, rfl⟩, _, _, _, rfl, rfl, rfl⟩⟩

/-- OkExactlyForSixBytes, TheErrorResponseIsCodeOneAndTheLength, EchoIsThePresentedBytes: the lengths 5, 6 and 7. -/
theorem witness_lengths : (∃ t, (serving exactCfg [0, 0, 0, 0, 1]).Takes ⟨0, [0, 0, 0, 0, 1]⟩ t) ∧
    (∃ t, (serving exactCfg (RawValue.bytes ⟨0, 0, 0, 0, 0, 1⟩)).Takes ⟨0, RawValue.bytes ⟨0, 0, 0, 0, 0, 1⟩⟩ t) ∧
    (∃ t, (serving exactCfg [0, 0, 0, 0, 0, 1, 0]).Takes ⟨0, [0, 0, 0, 0, 0, 1, 0]⟩ t) ∧
    [0, 0, 0, 0, 1].length ≠ 6 ∧ (RawValue.bytes ⟨0, 0, 0, 0, 0, 1⟩).length = 6 ∧ [0, 0, 0, 0, 0, 1, 0].length ≠ 6 :=
  ⟨(takes_serving _ _).1, (takes_serving _ _).1, (takes_serving _ _).1, by decide, by decide, by decide⟩

/-- EveryAnswerIsTheResponseFunction: a turn that takes a request. -/
theorem witness_answer : ∃ t, (serving shortestCfg [0, 0, 0, 0, 0, 0xFF]).Takes ⟨0, [0, 0, 0, 0, 0, 0xFF]⟩ t :=
  (takes_serving _ _).1

/-- DecodeNormalAnswersTheTruncatedValue and every statement with the hypothesis `b5 ≠ 0`: the ends of its range. -/
theorem witness_nonzero_exponent : (RawValue.mk 0 0 0 0 0 0x01).b5 ≠ 0 ∧ (RawValue.mk 0xFF 0xFF 0xFF 0xFF 0xFF 0xFF).b5 ≠ 0 := by
  decide

/-- ExecChangesOnlyTheResponsePort: both classes answer a next state. -/
theorem witness_exec : (∃ t, exec (.decodeZero 0 0 0 0 0) State.reset = .next t) ∧
    ∃ t, exec (.decodeNormal 0 0 0 0 0 1) State.reset = .next t := ⟨⟨_, rfl⟩, ⟨_, rfl⟩⟩

/-- ZeroValueExactlyForZeroExponent: both clauses, where they meet (`b5 = 0` and `b5 = 1`). -/
theorem witness_zero_exponent : (RawValue.mk 0x80 0 0 0 0 0).b5 = 0 ∧ (RawValue.mk 0x80 0 0 0 0 1).b5 ≠ 0 := by decide

/-- DecodingAnEncodingGivesItBack: a well-formed instruction of each class, with the raw value of its bytes. -/
theorem witness_encode : (Instr.wf (.decodeZero 1 2 3 4 5) = true ∧ encode (.decodeZero 1 2 3 4 5) = RawValue.bytes ⟨1, 2, 3, 4, 5, 0⟩) ∧
    Instr.wf (.decodeNormal 1 2 3 4 5 1) = true ∧ encode (.decodeNormal 1 2 3 4 5 1) = RawValue.bytes ⟨1, 2, 3, 4, 5, 1⟩ := by
  decide

/-- EncodingADecodedRequestGivesItBack. -/
theorem witness_decode : (∃ i, decode [1, 2, 3, 4, 5, 0] = .ok i) ∧ ∃ i, decode [1, 2, 3, 4, 5, 0xFF] = .ok i :=
  ⟨⟨_, rfl⟩, ⟨_, rfl⟩⟩

/-- ExponentFieldAloneSelectsTheClass: the ends of both clauses. -/
theorem witness_class : (0xFFFFFFFFFF00 < 2 ^ 48 ∧ 0xFFFFFFFFFF00 &&& 0xFF = 0) ∧ (0x000000000000 &&& 0xFF = 0) ∧
    (0xFFFFFFFFFFFF < 2 ^ 48 ∧ 0xFFFFFFFFFFFF &&& 0xFF ≠ 0) ∧ 0x000000000001 &&& 0xFF ≠ 0 := by decide

/-- APlacedWordRunsNext: a word of each class. -/
theorem witness_placed : (∃ i, 0x123456789A00 < 2 ^ 48 ∧ decodeTableWord 48 0x123456789A00 = some i) ∧
    ∃ i, 0xFFFFFFFFFFFF < 2 ^ 48 ∧ decodeTableWord 48 0xFFFFFFFFFFFF = some i :=
  ⟨⟨_, by decide, rfl⟩, ⟨_, by decide, rfl⟩⟩

/-- EveryInputBitHasItsPlaceInTheRawPattern: the ends of each range of `j`. -/
theorem witness_bit_ranges : (0 ≤ 6 ∧ 6 ≤ 6) ∧ (0 ≤ 7 ∧ 7 ≤ 7) ∧ (0 ≤ 12 ∧ 12 ≤ 12) := by decide

/-- BinaryReadingOfEveryPattern: a pattern of each case, at the ends of its range. -/
theorem witness_reading :
    (expField 0x0010000000000000).toNat = 1 ∧ (expField 0x7FE0000000000000).toNat = 2046 ∧
    ((expField 0x0000000000000000).toNat = 0 ∧ fracField 0x0000000000000000 = 0 ∧ signField 0x0000000000000000 = 0) ∧
    ((expField 0x8000000000000000).toNat = 0 ∧ fracField 0x8000000000000000 = 0 ∧ signField 0x8000000000000000 = 1) ∧
    ((expField 0x0000000000000001).toNat = 0 ∧ fracField 0x0000000000000001 ≠ 0) ∧
    ((expField 0x7FF0000000000000).toNat = 2047 ∧ fracField 0x7FF0000000000000 = 0) ∧
    ((expField 0x7FF0000000000001).toNat = 2047 ∧ fracField 0x7FF0000000000001 ≠ 0) := by decide

/-- MagnitudeRangeOfTheInputs: the smallest, the largest, and two consecutive significands. -/
theorem witness_magnitudes :
    (RawValue.mk 0 0 0 0 0 1).b5 = 1 ∧ significand ⟨0, 0, 0, 0, 0, 1⟩ = 0 ∧
    (significand ⟨0x7F, 0xFF, 0xFF, 0xFF, 0xFF, 0xFF⟩).toNat = 2 ^ 39 - 1 ∧
    (significand ⟨0, 0, 0, 1, 0, 1⟩).toNat = (significand ⟨0x80, 0, 0, 0, 0xFF, 1⟩).toNat + 1 := by decide

/-- TruncationIsTowardZeroToElevenDigits, its last clause: the ends of the range of `k` (R130, R145). -/
theorem witness_decimal_range :
    ((10 : ℚ) ^ (-39 : ℤ) ≤ |digitSource .exact (rawPattern ⟨0, 0, 0, 0, 0, 1⟩)| ∧
      |digitSource .exact (rawPattern ⟨0, 0, 0, 0, 0, 1⟩)| < (10 : ℚ) ^ (-39 + 1 : ℤ)) ∧
    (10 : ℚ) ^ (38 : ℤ) ≤ |digitSource .exact (rawPattern ⟨0x7F, 0xFF, 0xFF, 0xFF, 0xFF, 0xFF⟩)| ∧
      |digitSource .exact (rawPattern ⟨0x7F, 0xFF, 0xFF, 0xFF, 0xFF, 0xFF⟩)| < (10 : ℚ) ^ (38 + 1 : ℤ) := by
  have h1 : digitSource .exact (rawPattern ⟨0, 0, 0, 0, 0, 1⟩) = 1 / 340282366920938463463374607431768211456 := by
    decide +kernel
  have h2 : digitSource .exact (rawPattern ⟨0x7F, 0xFF, 0xFF, 0xFF, 0xFF, 0xFF⟩) =
      170141183460314489226776631181521715200 := by decide +kernel
  rw [h1, h2]
  norm_num [abs_of_pos]

/-- TruncationIsTowardZeroToElevenDigits and SignPassesThroughTheUnit: a nonzero rational. -/
theorem witness_nonzero : (-(1 : ℚ) / 3) ≠ 0 := by norm_num

/-- TruncationAndRoundingAreMonotone and RoundingIsToNearestTiesToEven: rationals in the range of R147, its lower end
among them, and patterns with a finite reading. -/
theorem witness_rounding_range : (2 : ℚ) ^ (-1022 : ℤ) ≤ |(2 : ℚ) ^ (-1022 : ℤ)| ∧
    (0 : ℚ) < 1 ∧ (1 : ℚ) ≤ 2 ∧ (2 : ℚ) ^ (-1022 : ℤ) ≤ 1 ∧ (2 : ℚ) < (2 : ℚ) ^ (1024 : ℤ) ∧
    |(1 : ℚ)| < (2 : ℚ) ^ (1024 : ℤ) ∧
    (∃ x, (binary64Value 0x3FF0000000000000).value? = some x) ∧ ∃ x, (binary64Value 0x8000000000000000).value? = some x := by
  refine ⟨le_abs_self _, by norm_num, by norm_num, zpow_le_one_of_nonpos₀ (by norm_num) (by norm_num), ?_, ?_, ⟨_, rfl⟩, ⟨_, rfl⟩⟩
  · exact (zpow_lt_zpow_right₀ (by norm_num : (1 : ℚ) < 2) (by norm_num : (1 : ℤ) < 1024)).trans_eq' (zpow_one _)
  · rw [abs_one]; exact one_lt_zpow₀ (by norm_num) (by norm_num)

/-- RoundingGivesNormalPatternsBack: the ends of the normal range. -/
theorem witness_normal : 1 ≤ (expField 0x0010000000000000).toNat ∧ (expField 0x7FEFFFFFFFFFFFFF).toNat ≤ 2046 := by decide

/-- ResultStaysNormalAndInRange, first clause: `XVAL = 1` and `k = 0`. -/
theorem witness_decimal_exponent : (10 : ℚ) ^ (0 : ℤ) ≤ |xval (rawPattern ⟨0, 0, 0, 0, 0, 0x81⟩)| ∧
    |xval (rawPattern ⟨0, 0, 0, 0, 0, 0x81⟩)| < (10 : ℚ) ^ (0 + 1 : ℤ) := by
  have h : xval (rawPattern ⟨0, 0, 0, 0, 0, 0x81⟩) = 1 := by decide
  rw [h]; norm_num

/-- ValuesOfElevenDigitsAreUnchanged and DigitSourcesDifferOnlyOnShortDecimals: XVAL and SHORTEST with at most 11 digits
(RB-2, T-DS-1), and two modes that differ (T-DS-1). -/
theorem witness_short_decimals : HasDigits 11 (xval (rawPattern ⟨0, 0, 0, 0, 0, 0x81⟩)) ∧
    HasDigits 11 (shortest (rawPattern ⟨0x11, 0x0E, 0xCF, 0xA1, 0x22, 0x82⟩)) ∧
    truncatedValue .exact (rawPattern ⟨0x11, 0x0E, 0xCF, 0xA1, 0x22, 0x82⟩) ≠
      truncatedValue .shortest (rawPattern ⟨0x11, 0x0E, 0xCF, 0xA1, 0x22, 0x82⟩) := by
  refine ⟨⟨1, 0, by norm_num, ?_⟩, ⟨22665289949, -10, by norm_num, ?_⟩, by decide +kernel⟩
  · have h : xval (rawPattern ⟨0, 0, 0, 0, 0, 0x81⟩) = 1 := by decide
    rw [h]; norm_num
  · have h : shortest (rawPattern ⟨0x11, 0x0E, 0xCF, 0xA1, 0x22, 0x82⟩) = 22665289949 / 10000000000 := by decide +kernel
    rw [h, abs_of_pos (by norm_num)]; norm_num

/-- DigitSourcesDifferOnlyOnShortDecimals, its first clause: 2^39 = 549755813888 has 12 digits (TR-7). -/
theorem witness_long_decimal : ¬ HasDigits 11 (shortest (rawPattern ⟨0, 0, 0, 0, 0, 0xA8⟩)) := by
  have h : shortest (rawPattern ⟨0, 0, 0, 0, 0, 0xA8⟩) = 549755813888 := by decide +kernel
  rw [h]
  rintro ⟨d, q, hd, hq⟩
  rw [abs_of_pos (by norm_num)] at hq
  rcases q with n | n
  · have hn : (549755813888 : ℕ) = d * 10 ^ n := by
      rw [Int.ofNat_eq_natCast, zpow_natCast] at hq; exact_mod_cast hq
    rcases n with - | n
    · omega
    · have : 10 ∣ 549755813888 := ⟨d * 10 ^ n, by rw [hn, pow_succ]; ring⟩
      omega
  · have hp : (0 : ℚ) < 10 ^ (n + 1) := by positivity
    have h1 : (1 : ℚ) ≤ 10 ^ (n + 1) := one_le_pow₀ (by norm_num)
    have hd' : (d : ℚ) < 10 ^ 11 := by exact_mod_cast hd
    rw [zpow_negSucc, ← div_eq_mul_inv, eq_div_iff hp.ne'] at hq
    nlinarith

/-- EqualRequestsGetEqualResponses and EachRequestIsAnsweredAtMostOnce: two runs from reset that answer the same bytes. -/
theorem witness_runs :
    (∃ t, runSteps 2 (State.startWith exactCfg [.present [0, 0, 0, 0, 0, 0], .serve]) = .next t ∧
      ∃ a ∈ t.answered, a.request.bytes = [0, 0, 0, 0, 0, 0]) ∧
    ∃ t, runSteps 4 (State.startWith exactCfg [.present [], .serve, .present [0, 0, 0, 0, 0, 0], .serve]) = .next t ∧
      ∃ a ∈ t.answered, a.request.bytes = [0, 0, 0, 0, 0, 0] :=
  ⟨⟨_, rfl, _, List.mem_cons_self, rfl⟩, ⟨_, rfl, _, List.mem_cons_of_mem _ List.mem_cons_self, rfl⟩⟩

/-- EveryRequestIsAnswered: a state with a request in flight and another to come; and one where a read is allowed. -/
theorem witness_liveness :
    ((∀ i ∈ ({ serving exactCfg [] with inputs := [.present []] } : State).inputs, i ≠ .reset) ∧
      ∀ i ∈ ({ serving exactCfg [] with inputs := [.present []] } : State).inputs, i ≠ .read) ∧
    (∀ i ∈ ({ aboutToReset with inputs := [.read] } : State).inputs, i ≠ .reset) ∧
      ({ aboutToReset with inputs := [.read] } : State).rsp ≠ none := by decide

/-- EveryRequestIsAnsweredInARunWithoutFault: RSP starts empty and is read after the first answer. -/
theorem witness_liveness_with_read :
    (∀ i ∈ (State.startWith exactCfg [.present [], .serve, .read]).inputs, i ≠ .reset) ∧
    (State.startWith exactCfg [.present [], .serve, .read]).rsp = none ∧
    ∃ t, runSteps (2 * 3 + 0) (State.startWith exactCfg [.present [], .serve, .read]) = .next t :=
  ⟨by decide, rfl, ⟨_, rfl⟩⟩

end Sys2Proof.Tests
end

section
/-! The frame of an instruction (20_memory.md). -/

namespace Sys2Proof.Machine

/-- Settles O16: by `exec_eq`, the only next state of `exec` is `s` with an `Ok` response written to `RSP` (R50). -/
theorem execChangesOnlyTheResponsePort : Obligations.ExecChangesOnlyTheResponsePort := by
  intro i s t h
  obtain ⟨value, echo, hexec⟩ := exec_eq i s
  have ht : t = { s with rsp := some (.ok value echo) } := Host.Outcome.next.inj (h.symm.trans hexec)
  subst ht
  exact ⟨rfl, rfl, rfl, rfl, rfl, rfl, value, echo, rfl⟩

end Sys2Proof.Machine
end

section
/-! The encoding of a request (30_encoding.md): how a word is decoded. -/

namespace Sys2Proof.Machine

/-- The zero detector says exactly that the exponent byte is 0 (R121). -/
theorem zeroBit_eq_one_iff {e : BitVec 8} : zeroBit e = 1 ↔ e = 0 := by
  unfold zeroBit
  split
  next h => exact iff_of_true rfl h
  next h => exact iff_of_false (by decide) h

theorem decodeSix_of_b5_eq_zero {v : RawValue} (h : v.b5 = 0) :
    decodeSix v = .decodeZero v.b0 v.b1 v.b2 v.b3 v.b4 :=
  if_pos (zeroBit_eq_one_iff.2 h)

theorem decodeSix_of_b5_ne_zero {v : RawValue} (h : v.b5 ≠ 0) :
    decodeSix v = .decodeNormal v.b0 v.b1 v.b2 v.b3 v.b4 v.b5 :=
  if_neg (mt zeroBit_eq_one_iff.1 h)

/-- The raw value of a word `W`: its bytes as R42 places them. -/
def wordRawValue (w : Word48) : RawValue :=
  ⟨w.extractLsb' 40 8, w.extractLsb' 32 8, w.extractLsb' 24 8, w.extractLsb' 16 8, w.extractLsb' 8 8, w.extractLsb' 0 8⟩

theorem bytes_wordRawValue (w : Word48) : (wordRawValue w).bytes = wordBytes w := rfl

theorem toNat_b5_wordRawValue (w : Word48) : (wordRawValue w).b5.toNat = w.toNat &&& 0xFF := by
  rw [show 0xFF = 2 ^ 8 - 1 from rfl, Nat.and_two_pow_sub_one_eq_mod]
  simp [wordRawValue]

/-- No table word is rejected: it has six bytes, so the length check passes (R68). -/
theorem decodeTableWord_eq_decodeSix {w : Nat} (hw : w < 2 ^ 48) :
    decodeTableWord 48 w = some (decodeSix (wordRawValue (BitVec.ofNat 48 w))) := by
  rw [decodeTableWord, if_pos le_rfl, tableWordBytes, Nat.mod_eq_of_lt hw, ← bytes_wordRawValue, decode_bytes]

/-- Settles O21: a word decodes as its six bytes do, whose last is the low eight bits of the word (R42, R67); so the
zero test of `decodeSix` splits the words as the two clauses do. -/
theorem exponentFieldAloneSelectsTheClass : Obligations.ExponentFieldAloneSelectsTheClass := by
  intro w hw
  have hb5 : (wordRawValue (BitVec.ofNat 48 w)).b5.toNat = w &&& 0xFF := by
    rw [toNat_b5_wordRawValue, BitVec.toNat_ofNat, Nat.mod_eq_of_lt hw]
  rw [decodeTableWord_eq_decodeSix hw]
  refine ⟨fun h => ?_, fun h => ?_⟩
  · have hzero : (wordRawValue (BitVec.ofNat 48 w)).b5 = 0 := BitVec.eq_of_toNat_eq (hb5.trans h)
    rw [decodeSix_of_b5_eq_zero hzero]
    exact ⟨_, _, _, _, _, rfl⟩
  · have hne : (wordRawValue (BitVec.ofNat 48 w)).b5 ≠ 0 := fun hzero => h (by rw [← hb5, hzero]; rfl)
    rw [decodeSix_of_b5_ne_zero hne]
    exact ⟨_, _, _, _, _, _, hb5, rfl⟩

end Sys2Proof.Machine
end

section
/-! The response to a request and the runs it appears in (40_converter.md): processing is the response function of R89,
and so is every answer of a run from reset. -/

namespace Sys2Proof.Machine

/-! ## RAW64 as R89 writes it -/

/-- SIGN in 64 bits is the top bit of `b0`: the shift leaves nothing for the mask of R100 to clear. -/
theorem setWidth_signBit (b : Byte) : (signBit b).setWidth 64 = b.setWidth 64 >>> 7 := by
  have hb := b.isLt
  apply BitVec.eq_of_toNat_eq
  simp [signBit, Nat.shiftRight_eq_div_pow]
  omega

/-- The mask of R101 already leaves only seven bits. -/
theorem setWidth_frag7 (b : Byte) : (frag7 b).setWidth 64 = (b &&& 0x7F).setWidth 64 := by
  have hb : (b &&& 0x7F).toNat < 2 ^ 7 := by
    rw [BitVec.toNat_and]
    exact Nat.and_lt_two_pow _ (by decide)
  apply BitVec.eq_of_toNat_eq
  rw [frag7, BitVec.toNat_setWidth, BitVec.toNat_setWidth, Nat.mod_eq_of_lt hb, BitVec.toNat_setWidth]

/-- A shift that loses no bit in `m` bits is the same shift in a wider word. -/
theorem setWidth_shiftLeft_of_fits {k m w n : Nat} (x : BitVec k) (hfits : k + n ≤ m) (hle : m ≤ w) :
    ((x.setWidth m) <<< n).setWidth w = x.setWidth w <<< n := by
  apply BitVec.eq_of_toNat_eq
  have hlt : x.toNat <<< n < 2 ^ m :=
    (Nat.shiftLeft_lt x.isLt).trans_le (Nat.pow_le_pow_right Nat.two_pos hfits)
  have hm : x.toNat < 2 ^ m := x.isLt.trans_le (Nat.pow_le_pow_right Nat.two_pos (by omega))
  have hw : x.toNat < 2 ^ w := hm.trans_le (Nat.pow_le_pow_right Nat.two_pos hle)
  simp [Nat.mod_eq_of_lt, hlt, hm, hw]

/-- The rebias adder does not wrap: `b5 + 894` fits in 11 bits (R122). -/
theorem setWidth_iexp11 (e : Byte) : (iexp11 e).setWidth 64 = e.setWidth 64 + 894 := by
  have he := e.isLt
  apply BitVec.eq_of_toNat_eq
  simp [iexp11]
  omega

/-- Nothing is lost between the 39-bit significand, the 52-bit fraction and the 64-bit pattern. -/
theorem setWidth_frac52_significand (v : RawValue) :
    (frac52 (significand v)).setWidth 64 =
      (((v.b0 &&& 0x7F).setWidth 64 <<< 32) ||| (v.b1.setWidth 64 <<< 24) ||| (v.b2.setWidth 64 <<< 16)
        ||| (v.b3.setWidth 64 <<< 8) ||| v.b4.setWidth 64) <<< 13 := by
  rw [frac52, setWidth_shiftLeft_of_fits _ (by decide) (by decide), significand, sig39]
  simp [BitVec.setWidth_or, setWidth_shiftLeft_of_fits, setWidth_frag7]

/-- RAW64 built unit by unit (R84 steps 2 to 7) is the pattern that R89 writes out. -/
theorem rawPattern_eq_patternOf (v : RawValue) : rawPattern v = patternOf v := by
  rw [rawPattern, assemble, patternOf, setWidth_signBit, exp8, setWidth_iexp11, setWidth_frac52_significand]

/-! ## Processing is the response function -/

theorem response_bytes (cfg : Config) (v : RawValue) :
    response cfg v.bytes =
      .ok (if v.b5 = 0 then 0 else truncatedValue cfg.digitSource (patternOf v)) (echoOf cfg v) := rfl

theorem response_of_length_ne (cfg : Config) {bytes : List Byte} (h : bytes.length ≠ 6) :
    response cfg bytes = .err 1 bytes.length := by
  unfold response
  split
  · simp at h
  · rfl

/-- Both classes answer six bytes by the response function of R89. -/
theorem exec_decodeSix (v : RawValue) (s : State) :
    exec (decodeSix v) s = .next { s with rsp := some (response s.config v.bytes) } := by
  obtain ⟨b0, b1, b2, b3, b4, b5⟩ := v
  by_cases h : b5 = 0
  · subst h
    rfl
  · rw [decodeSix_of_b5_ne_zero h, response_bytes, if_neg h, ← rawPattern_eq_patternOf]
    rfl

/-- R89: processing a request puts the response function of its bytes on `RSP` and changes nothing else. -/
theorem process_eq_response (bytes : List Byte) (s : State) :
    process bytes s = .next { s with rsp := some (response s.config bytes) } := by
  unfold process
  by_cases h : bytes.length = 6
  · obtain ⟨v, rfl⟩ := exists_rawValue h
    rw [decode_bytes]
    exact exec_decodeSix v s
  · rw [decode_of_length_ne h, response_of_length_ne _ h]
    rfl

theorem State.take?_config {s t : State} {r : Request} (h : s.take? = some (r, t)) : t.config = s.config := by
  rw [(State.take?_eq_some h).2]

theorem State.take?_answered {s t : State} {r : Request} (h : s.take? = some (r, t)) : t.answered = s.answered := by
  rw [(State.take?_eq_some h).2]

/-- The block's turn answers the request it takes by the response function. -/
theorem serve_eq_response {s t : State} {r : Request} (h : s.take? = some (r, t)) :
    serve s = .next { t with
      rsp := some (response s.config r.bytes), answered := t.answered ++ [⟨r, response s.config r.bytes⟩] } := by
  rw [← State.take?_config h]
  exact serve_of_take h (process_eq_response r.bytes t)

/-- A step that takes a request answers it by the response function, whoever gave the block its turn. -/
theorem step_eq_response {s t : State} {r : Request} (h : s.Takes r t) :
    step s = .next { t with
      rsp := some (response s.config r.bytes), answered := t.answered ++ [⟨r, response s.config r.bytes⟩] } := by
  obtain ⟨hnil, htake⟩ | ⟨rest, hcons, htake⟩ := h
  · rw [step_of_nil hnil]
    exact serve_eq_response htake
  · rw [step_of_cons hcons]
    exact serve_eq_response htake

/-- Settles O10: the step answers by the response function, which is `Ok` on six bytes (`response_bytes`) and the error
on any other length (`response_of_length_ne`). -/
theorem okExactlyForSixBytes : Obligations.OkExactlyForSixBytes := by
  intro s t r htakes
  have hstep := step_eq_response htakes
  refine ⟨fun hsix => ?_, fun hne => ?_⟩
  · obtain ⟨v, hv⟩ := exists_rawValue hsix
    rw [hv, response_bytes] at hstep
    exact ⟨_, _, hstep⟩
  · rw [response_of_length_ne _ hne] at hstep
    exact ⟨_, _, hstep⟩

/-! ## Runs -/

/-- A run of `k + 1` steps that stops nowhere is one step and a run of `k`. -/
theorem runSteps_succ_eq_next {k : Nat} {s t : State} :
    runSteps (k + 1) s = .next t ↔ ∃ u, step s = .next u ∧ runSteps k u = .next t := by
  simp only [runSteps, Host.Core.run, Sys2Proof.core]
  cases step s <;> simp

/-- What every step keeps, every run keeps. -/
theorem runSteps_keeps {P : State → Prop} (hstep : ∀ s t, P s → step s = .next t → P t) {k : Nat} {s t : State}
    (hs : P s) (hrun : runSteps k s = .next t) : P t := by
  induction k generalizing s with
  | zero => cases hrun; exact hs
  | succ k ih =>
    obtain ⟨u, hu, hrest⟩ := runSteps_succ_eq_next.1 hrun
    exact ih (hstep s u hs hu) hrest

/-- The state has configuration `cfg`, and every answer delivered so far is the response function, under `cfg`, of its
request's bytes. -/
def State.AnswersBy (cfg : Config) (s : State) : Prop :=
  s.config = cfg ∧ ∀ a ∈ s.answered, a.response = response cfg a.request.bytes

theorem startWith_answersBy (cfg : Config) (inputs : List Input) : (State.startWith cfg inputs).AnswersBy cfg :=
  ⟨rfl, fun _ ha => nomatch ha⟩

theorem serve_keeps_answersBy {cfg : Config} {s t : State} (hs : s.AnswersBy cfg) (h : serve s = .next t) :
    t.AnswersBy cfg := by
  obtain ⟨-, hidle⟩ | ⟨r, u, -, htake, -, -⟩ := serve_cases s
  · cases hidle.symm.trans h
    exact hs
  · cases (serve_eq_response htake).symm.trans h
    obtain ⟨hcfg, hans⟩ := hs
    refine ⟨(State.take?_config htake).trans hcfg, fun a ha => ?_⟩
    rcases List.mem_append.1 ha with hold | hnew
    · exact hans a (State.take?_answered htake ▸ hold)
    · rw [List.mem_singleton.1 hnew, hcfg]

/-- Only the block's turn adds an answer, and no step writes the configuration. -/
theorem step_keeps_answersBy {cfg : Config} (s t : State) (hs : s.AnswersBy cfg) (h : step s = .next t) :
    t.AnswersBy cfg := by
  rcases step_cases h with ⟨-, hserve⟩ | ⟨rest, -, hserve⟩ | ⟨bytes, rest, -, rfl⟩ | ⟨rest, resp, -, -, rfl⟩ |
    ⟨rest, -, rfl⟩
  · exact serve_keeps_answersBy hs hserve
  · exact serve_keeps_answersBy (s := { s with inputs := rest }) hs hserve
  · exact hs
  · exact hs
  · exact hs

/-- Settles O46: in both runs every answer is the response function, under the one configuration, of its request's
bytes (R86). -/
theorem equalRequestsGetEqualResponses : Obligations.EqualRequestsGetEqualResponses := by
  intro cfg inputs inputs' k k' t t' hrun hrun' a ha a' ha' hbytes
  obtain ⟨-, hans⟩ := runSteps_keeps step_keeps_answersBy (startWith_answersBy cfg inputs) hrun
  obtain ⟨-, hans'⟩ := runSteps_keeps step_keeps_answersBy (startWith_answersBy cfg inputs') hrun'
  rw [hans a ha, hans' a' ha', hbytes]

end Sys2Proof.Machine
end

section
/-! The mantissa bit-packer (41_mantissa_packer.md): a masked shift is a slice, and shifted parts that do not overlap OR to
their concatenation, so each unit of R100 to R103 is fixed wiring. -/

namespace Sys2Proof.Machine

/-- A mask that keeps exactly the low `n` bits takes the slice of `n` bits that starts at the shift. -/
theorem setWidth_ushiftRight_and {m n : Nat} (x mask : BitVec m) (k : Nat) (hmask : mask.setWidth n = BitVec.allOnes n) :
    ((x >>> k) &&& mask).setWidth n = x.extractLsb' k n := by
  rw [BitVec.setWidth_and, hmask, BitVec.and_allOnes]
  ext i hi
  simp

/-- In a word of any width, a concatenation is the OR of its low part and its high part shifted past it. -/
theorem setWidth_append_eq_shiftLeft_or {k n : Nat} (w : Nat) (x : BitVec k) (y : BitVec n) :
    (x ++ y).setWidth w = x.setWidth w <<< n ||| y.setWidth w := by
  ext i hi
  by_cases hlow : i < n
  · simp [BitVec.getLsbD_append, hlow]
  · have hy : y.getLsbD i = false := BitVec.getLsbD_of_ge y i (by omega)
    simp [BitVec.getLsbD_append, hlow, hy]

theorem signBit_eq_extract (b : Byte) : signBit b = b.extractLsb' 7 1 :=
  setWidth_ushiftRight_and b 1 7 (by decide)

theorem frag7_eq_extract (b : Byte) : frag7 b = b.extractLsb' 0 7 := by
  rw [← setWidth_ushiftRight_and b 0x7F 0 (by decide), BitVec.ushiftRight_zero, frag7]

/-- Cutting one part after the other off the concatenation shifts each part by the width of those to its right. -/
theorem sig39_eq_append (frag : BitVec 7) (b1 b2 b3 b4 : Byte) :
    sig39 frag b1 b2 b3 b4 = frag ++ b1 ++ b2 ++ b3 ++ b4 := by
  rw [← BitVec.setWidth_eq (frag ++ b1 ++ b2 ++ b3 ++ b4)]
  simp only [setWidth_append_eq_shiftLeft_or, BitVec.shiftLeft_or_distrib, ← BitVec.shiftLeft_add]
  rfl

theorem frac52_eq_append (sig : BitVec 39) : frac52 sig = sig ++ (0 : BitVec 13) := by
  rw [← BitVec.setWidth_eq (sig ++ (0 : BitVec 13)), setWidth_append_eq_shiftLeft_or]
  exact BitVec.or_zero.symm

/-- Settles O25: each unit is its slice or its concatenation (R100 to R103). -/
theorem packerIsFixedWiring : Obligations.PackerIsFixedWiring := fun b0 b1 b2 b3 b4 frag sig =>
  ⟨signBit_eq_extract b0, frag7_eq_extract b0, sig39_eq_append frag b1 b2 b3 b4, frac52_eq_append sig⟩

end Sys2Proof.Machine
end

section
/-! The exponent rebias-and-assemble unit up to RAW64 (42_exponent_assemble.md): the rebias adder does not wrap, and the
three parts of RAW64 stand side by side, so its exponent field is the adder's sum and its low bits are the packer's zeros. -/

namespace Sys2Proof.Machine

/-- R122: the sum is at most 255 + 894, which fits in 11 bits. -/
theorem toNat_iexp11 (e : BitVec 8) : (iexp11 e).toNat = e.toNat + 894 := by
  have he := e.isLt
  unfold iexp11
  bv_omega

/-- Every sum of the adder, that of the unused exponent 0 included, lies inside the normal range (R124). -/
theorem iexp11_normal (e : BitVec 8) : iexp11 e ≠ 0 ∧ iexp11 e ≠ 2047 := by
  have he := e.isLt
  have hsum := toNat_iexp11 e
  constructor
  · bv_omega
  · bv_omega

/-- Cutting the fraction, then the exponent, off the concatenation shifts each field by the widths of those to its right. -/
theorem assemble_eq_append (s : BitVec 1) (e : BitVec 11) (f : BitVec 52) : assemble s e f = s ++ e ++ f := by
  rw [← BitVec.setWidth_eq (s ++ e ++ f)]
  simp only [setWidth_append_eq_shiftLeft_or, BitVec.shiftLeft_or_distrib, ← BitVec.shiftLeft_add]
  rfl

/-- FRAC52 stands lowest in RAW64, and its own low 13 bits are the zeros of R103. -/
theorem rawPattern_low_bits (v : RawValue) : (rawPattern v).extractLsb' 0 13 = 0 := by
  rw [rawPattern, assemble_eq_append, frac52_eq_append,
    BitVec.extractLsb'_append_eq_of_add_le (by decide), BitVec.extractLsb'_append_eq_of_add_le (by decide)]
  exact BitVec.extractLsb'_eq_self

theorem expField_rawPattern (v : RawValue) : expField (rawPattern v) = iexp11 (exp8 v.b5) :=
  expField_assemble _ _ _

/-- Settles O28: the ORs concatenate (`assemble_eq_append`), so the low bits are those of FRAC52 and the exponent field
is the sum of the rebias adder, which is normal (R125). -/
theorem assemblerIsConcatenation : Obligations.AssemblerIsConcatenation := by
  refine ⟨fun s e f => ⟨assemble_eq_append s e f, signField_assemble s e f, expField_assemble s e f,
    fracField_assemble s e f⟩, fun v _ => ⟨rfl, rawPattern_low_bits v, ?_⟩⟩
  rw [expField_rawPattern]
  exact iexp11_normal _

theorem zeroBit_of_ne_zero {e : BitVec 8} (h : e ≠ 0) : zeroBit e = 0 := if_neg h

/-- Settles O27: the zero detector selects the class as `decodeSix` does, and the rebias adder does not wrap
(`toNat_iexp11`; R120 to R122). -/
theorem zeroDetectorAndRebiasAdder : Obligations.ZeroDetectorAndRebiasAdder := by
  intro v
  refine ⟨rfl, fun hzero => ⟨zeroBit_eq_one_iff.2 hzero, decodeSix_of_b5_eq_zero hzero⟩, fun hne => ?_⟩
  have hsum : (iexp11 (exp8 v.b5)).toNat = v.b5.toNat + 894 := toNat_iexp11 v.b5
  have hbyte := v.b5.isLt
  exact ⟨zeroBit_of_ne_zero hne, decodeSix_of_b5_ne_zero hne, hsum, by omega⟩

end Sys2Proof.Machine
end

section
/-! The truncation toward zero (43_precision_truncation.md R144, R145): the grid of eleven-digit decimals, and the decimal
exponent of DSRC in both modes. -/

namespace Sys2Proof.Machine

/-! ## The digits of a number on its decimal grid -/

theorem zpow_dexp_le {a : ℚ} (ha : 0 < a) : (10 : ℚ) ^ dexp a ≤ a := zpow_ilog_le (b := 10) (by norm_num) ha

theorem lt_zpow_dexp_add_one {a : ℚ} (ha : 0 < a) : a < (10 : ℚ) ^ (dexp a + 1) :=
  lt_zpow_ilog_add_one (b := 10) (by norm_num) ha

/-- Each side of R144's bound on `a`, counted in units `10^(k-n)`. -/
theorem zpow_div_grid (k : ℤ) (n : ℕ) : (10 : ℚ) ^ k / (10 : ℚ) ^ (k - n) = 10 ^ n := by
  rw [← zpow_sub₀ (by norm_num), sub_sub_cancel, zpow_natCast]

theorem pow_le_floor_div_grid {a : ℚ} {k : ℤ} (n : ℕ) (h : (10 : ℚ) ^ k ≤ a) :
    10 ^ n ≤ ⌊a / (10 : ℚ) ^ (k - n)⌋₊ := by
  apply Nat.le_floor
  push_cast
  rw [← zpow_div_grid k n]
  gcongr

theorem floor_div_grid_lt_pow {a : ℚ} {k : ℤ} (n : ℕ) (ha : 0 ≤ a) (h : a < (10 : ℚ) ^ (k + 1)) :
    ⌊a / (10 : ℚ) ^ (k - n)⌋₊ < 10 ^ (n + 1) := by
  rw [Nat.floor_lt (by positivity)]
  push_cast
  rw [← zpow_div_grid (k + 1) (n + 1), Nat.cast_succ, add_sub_add_right_eq_sub]
  gcongr

theorem floor_div_mul_le {a u : ℚ} (ha : 0 ≤ a) (hu : 0 < u) : (⌊a / u⌋₊ : ℚ) * u ≤ a :=
  (le_div_iff₀ hu).1 (Nat.floor_le (div_nonneg ha hu.le))

theorem lt_floor_div_mul_add {a u : ℚ} (hu : 0 < u) : a < (⌊a / u⌋₊ : ℚ) * u + u := by
  rw [← add_one_mul, ← div_lt_iff₀ hu]
  exact Nat.lt_floor_add_one _

/-- A decimal of at most `n + 1` digits stands on the grid of its `n + 1` leading digits: its last digit is no finer than
that grid, for else its digits alone would reach `10^(n+1)`. -/
theorem floor_div_grid_mul_of_hasDigits {r : ℚ} {k : ℤ} (n : ℕ) (hk : (10 : ℚ) ^ k ≤ |r|) (h : HasDigits (n + 1) r) :
    (⌊|r| / (10 : ℚ) ^ (k - n)⌋₊ : ℚ) * (10 : ℚ) ^ (k - n) = |r| := by
  obtain ⟨c, e, hc, hr⟩ := h
  have hc' : (c : ℚ) < 10 ^ (n + 1) := by exact_mod_cast hc
  have hlt : (10 : ℚ) ^ k < (10 : ℚ) ^ ((n + 1 : ℕ) + e) := by
    calc (10 : ℚ) ^ k ≤ c * (10 : ℚ) ^ e := hr ▸ hk
      _ < 10 ^ (n + 1) * (10 : ℚ) ^ e := by gcongr
      _ = (10 : ℚ) ^ ((n + 1 : ℕ) + e) := by rw [zpow_add₀ (by norm_num), zpow_natCast]
  have hke : k < (n + 1 : ℕ) + e := (zpow_lt_zpow_iff_right₀ (by norm_num)).1 hlt
  obtain ⟨m, hm⟩ := Int.le.dest (show k - n ≤ e by omega)
  have hquot : |r| / (10 : ℚ) ^ (k - n) = ((c * 10 ^ m : ℕ) : ℚ) := by
    rw [hr, ← hm, zpow_add₀ (by norm_num), zpow_natCast, mul_left_comm, mul_div_cancel_left₀ _ (by positivity)]
    push_cast
    rfl
  rw [hquot, Nat.floor_natCast, ← hquot, div_mul_cancel₀ _ (by positivity)]

/-! ## TVAL -/

theorem sgn_eq_ite {r : ℚ} (h : r ≠ 0) : (sgn r : ℚ) = if r < 0 then -1 else 1 := by
  rcases lt_or_gt_of_ne h with hneg | hpos
  · rw [sgn_of_neg hneg, if_pos hneg]
    norm_num
  · rw [sgn_of_pos hpos, if_neg hpos.not_gt]
    norm_num

theorem abs_sgn {r : ℚ} (h : r ≠ 0) : |(sgn r : ℚ)| = 1 := by
  rw [sgn_eq_ite h]
  split <;> norm_num

/-- A number is its sign times its magnitude (R12). -/
theorem sgn_mul_abs (r : ℚ) : (sgn r : ℚ) * |r| = r := by
  rw [← magnitude_eq_abs, sgn_mul_magnitude]

theorem abs_trunc11 {r : ℚ} (h : r ≠ 0) :
    |trunc11 r| = (⌊|r| / (10 : ℚ) ^ (dexp |r| - 10)⌋₊ : ℚ) * (10 : ℚ) ^ (dexp |r| - 10) := by
  rw [trunc11_eq, magnitude_eq_abs, mul_assoc, abs_mul, abs_sgn h, one_mul, abs_of_nonneg (by positivity)]

theorem trunc11_eq_self_of_hasDigits {r : ℚ} (hr : r ≠ 0) (h : HasDigits 11 r) : trunc11 r = r := by
  have hgrid : (⌊|r| / (10 : ℚ) ^ (dexp |r| - 10)⌋₊ : ℚ) * (10 : ℚ) ^ (dexp |r| - 10) = |r| :=
    floor_div_grid_mul_of_hasDigits 10 (zpow_dexp_le (abs_pos.2 hr)) h
  rw [trunc11_eq, magnitude_eq_abs, mul_assoc, hgrid, sgn_mul_abs]

/-! ## The range of DSRC -/

/-- What the search of R143 finds at `p` digits: one of the two `p`-digit decimals next to `|XVAL|`, with the sign of XVAL,
and it converts back to the pattern. -/
theorem shortestOfLength_eq_some {p : ℕ} {raw : Bits64} {s : ℚ} (h : shortestOfLength p raw = some s) :
    ∃ n : ℕ, (n = ⌊|xval raw| / (10 : ℚ) ^ (dexp |xval raw| - p + 1)⌋₊ ∨
        n = ⌊|xval raw| / (10 : ℚ) ^ (dexp |xval raw| - p + 1)⌋₊ + 1) ∧
      s = (sgn (xval raw) : ℚ) * n * (10 : ℚ) ^ (dexp |xval raw| - p + 1) ∧ rne64 s = raw := by
  have hfloor : floorNat (mulPow |xval raw| 10 (-(dexp |xval raw| - p + 1))) =
      ⌊|xval raw| / (10 : ℚ) ^ (dexp |xval raw| - p + 1)⌋₊ := by
    rw [mulPow_eq _ _ (by norm_num), zpow_neg, ← div_eq_mul_inv, floorNat_eq_floor (by positivity)]
    rfl
  have hval (n : ℕ) : mulPow (sgn (xval raw) * (n : ℤ) : ℤ) 10 (dexp |xval raw| - p + 1) =
      (sgn (xval raw) : ℚ) * n * (10 : ℚ) ^ (dexp |xval raw| - p + 1) := by
    rw [mulPow_eq _ _ (by norm_num)]
    push_cast
    rfl
  unfold shortestOfLength at h
  simp only [magnitude_eq_abs, hfloor, hval] at h
  split at h
  · next hlo =>
    simp only [Bool.and_eq_true, beq_iff_eq] at hlo
    exact ⟨_, .inl rfl, (Option.some.inj h).symm, Option.some.inj h ▸ hlo.1⟩
  · split at h
    · next hhi => exact ⟨_, .inr rfl, (Option.some.inj h).symm, Option.some.inj h ▸ beq_iff_eq.1 hhi⟩
    · cases h

/-- A decimal found by the search keeps the leading digits of `|XVAL|` below it; above, it exceeds `|XVAL|` by at most one
unit of its last digit, which is no more than the power of ten below `|XVAL|`. -/
theorem abs_shortestOfLength_bounds {n : ℕ} {raw : Bits64} {s : ℚ} (h : shortestOfLength (n + 1) raw = some s) :
    (10 : ℚ) ^ dexp |xval raw| ≤ |s| ∧ |s| ≤ |xval raw| + (10 : ℚ) ^ dexp |xval raw| := by
  have hx : xval raw ≠ 0 := xval_ne_zero raw
  obtain ⟨m, hm, hs, -⟩ := shortestOfLength_eq_some h
  rw [Nat.cast_succ, sub_add_eq_sub_sub, sub_add_cancel] at hm hs
  set k := dexp |xval raw|
  have hk : (10 : ℚ) ^ k ≤ |xval raw| := zpow_dexp_le (abs_pos.2 hx)
  have habs : |s| = m * (10 : ℚ) ^ (k - n) := by
    rw [hs, mul_assoc, abs_mul, abs_sgn hx, one_mul, abs_of_nonneg (by positivity)]
  have hfloor : 10 ^ n ≤ ⌊|xval raw| / (10 : ℚ) ^ (k - n)⌋₊ := pow_le_floor_div_grid n hk
  constructor
  · have hlead : ((10 ^ n : ℕ) : ℚ) ≤ m := Nat.cast_le.2 (by omega)
    calc (10 : ℚ) ^ k = ((10 ^ n : ℕ) : ℚ) * (10 : ℚ) ^ (k - n) := by
          rw [Nat.cast_pow, ← div_eq_iff (by positivity)]
          exact zpow_div_grid k n
      _ ≤ m * (10 : ℚ) ^ (k - n) := by gcongr
      _ = |s| := habs.symm
  · have hnext : (m : ℚ) ≤ (⌊|xval raw| / (10 : ℚ) ^ (k - n)⌋₊ + 1 : ℕ) := Nat.cast_le.2 (by omega)
    calc |s| = m * (10 : ℚ) ^ (k - n) := habs
      _ ≤ (⌊|xval raw| / (10 : ℚ) ^ (k - n)⌋₊ + 1 : ℕ) * (10 : ℚ) ^ (k - n) := by gcongr
      _ = ⌊|xval raw| / (10 : ℚ) ^ (k - n)⌋₊ * (10 : ℚ) ^ (k - n) + (10 : ℚ) ^ (k - n) := by
          rw [Nat.cast_succ, add_one_mul]
      _ ≤ |xval raw| + (10 : ℚ) ^ k :=
          add_le_add (floor_div_mul_le (abs_nonneg _) (by positivity))
            (zpow_le_zpow_right₀ (by norm_num) (by omega))

/-- SHORTEST is found by the search at some length, or is XVAL itself. -/
theorem shortest_cases (raw : Bits64) :
    (∃ n, shortestOfLength (n + 1) raw = some (shortest raw)) ∨ shortest raw = xval raw := by
  unfold shortest
  cases h : (List.range 17).findSome? fun i => shortestOfLength (i + 1) raw with
  | none => exact .inr rfl
  | some s =>
    obtain ⟨n, -, hn⟩ := List.exists_of_findSome?_eq_some h
    exact .inl ⟨n, hn⟩

/-- In both modes, the bounds of `abs_shortestOfLength_bounds` hold of DSRC. -/
theorem abs_digitSource_bounds (ds : DigitSource) (raw : Bits64) :
    (10 : ℚ) ^ dexp |xval raw| ≤ |digitSource ds raw| ∧
      |digitSource ds raw| ≤ |xval raw| + (10 : ℚ) ^ dexp |xval raw| := by
  have hexact : (10 : ℚ) ^ dexp |xval raw| ≤ |xval raw| ∧ |xval raw| ≤ |xval raw| + (10 : ℚ) ^ dexp |xval raw| :=
    ⟨zpow_dexp_le (abs_pos.2 (xval_ne_zero raw)), le_add_of_nonneg_right (by positivity)⟩
  cases ds with
  | exact => exact hexact
  | shortest =>
    obtain ⟨n, hn⟩ | hx := shortest_cases raw
    · exact abs_shortestOfLength_bounds hn
    · rwa [digitSource, hx]

/-- The magnitudes of R130, with the upper end rounded up to a power of two. -/
theorem abs_xval_rawPattern_bounds {v : RawValue} (h : v.b5 ≠ 0) :
    (2 : ℚ) ^ (-128 : ℤ) ≤ |xval (rawPattern v)| ∧ |xval (rawPattern v)| < (2 : ℚ) ^ (127 : ℤ) := by
  have hfrac : ((fracField (rawPattern v)).toNat : ℚ) < 2 ^ 52 := by exact_mod_cast (fracField (rawPattern v)).isLt
  have hexp : (expField (rawPattern v)).toNat = v.b5.toNat + 894 := by
    rw [expField_rawPattern, toNat_iexp11]
    rfl
  have hlo : 1 ≤ v.b5.toNat := by bv_omega
  have hhi : v.b5.toNat ≤ 255 := by bv_omega
  rw [abs_xval, hexp]
  constructor
  · calc (2 : ℚ) ^ (-128 : ℤ) = 2 ^ 52 * (2 : ℚ) ^ (-180 : ℤ) := by norm_num
      _ ≤ _ := by
        gcongr
        · exact le_add_of_nonneg_right (Nat.cast_nonneg _)
        · norm_num
        · omega
  · calc _ < (2 ^ 52 + 2 ^ 52) * (2 : ℚ) ^ (((v.b5.toNat + 894 : ℕ) : ℤ) - 1075) := by gcongr
      _ ≤ (2 ^ 52 + 2 ^ 52) * (2 : ℚ) ^ (74 : ℤ) := by
        gcongr
        · norm_num
        · omega
      _ = (2 : ℚ) ^ (127 : ℤ) := by norm_num

theorem dexp_xval_rawPattern_bounds {v : RawValue} (h : v.b5 ≠ 0) :
    -39 ≤ dexp |xval (rawPattern v)| ∧ dexp |xval (rawPattern v)| ≤ 38 := by
  obtain ⟨hlo, hhi⟩ := abs_xval_rawPattern_bounds h
  have hpos : 0 < |xval (rawPattern v)| := abs_pos.2 (xval_ne_zero _)
  have hlow : (10 : ℚ) ^ (-39 : ℤ) < (10 : ℚ) ^ (dexp |xval (rawPattern v)| + 1) :=
    calc (10 : ℚ) ^ (-39 : ℤ) ≤ (2 : ℚ) ^ (-128 : ℤ) := by norm_num
      _ ≤ _ := hlo
      _ < _ := lt_zpow_dexp_add_one hpos
  have hupp : (10 : ℚ) ^ dexp |xval (rawPattern v)| < (10 : ℚ) ^ (39 : ℤ) :=
    calc (10 : ℚ) ^ dexp |xval (rawPattern v)| ≤ _ := zpow_dexp_le hpos
      _ < (2 : ℚ) ^ (127 : ℤ) := hhi
      _ ≤ (10 : ℚ) ^ (39 : ℤ) := by norm_num
  rw [zpow_lt_zpow_iff_right₀ (by norm_num)] at hlow hupp
  omega

/-- R145's range of `k`, as bounds on DSRC: above, `2^127 + 10^38` is still below `10^39`. -/
theorem abs_digitSource_rawPattern_bounds {v : RawValue} (ds : DigitSource) (h : v.b5 ≠ 0) :
    (10 : ℚ) ^ (-39 : ℤ) ≤ |digitSource ds (rawPattern v)| ∧ |digitSource ds (rawPattern v)| < (10 : ℚ) ^ (39 : ℤ) := by
  obtain ⟨hlo, hhi⟩ := abs_digitSource_bounds ds (rawPattern v)
  obtain ⟨hk, hk'⟩ := dexp_xval_rawPattern_bounds h
  have hten : (1 : ℚ) ≤ 10 := by norm_num
  constructor
  · exact (zpow_le_zpow_right₀ hten hk).trans hlo
  · calc |digitSource ds (rawPattern v)| ≤ _ := hhi
      _ < (2 : ℚ) ^ (127 : ℤ) + (10 : ℚ) ^ (38 : ℤ) :=
        add_lt_add_of_lt_of_le (abs_xval_rawPattern_bounds h).2 (zpow_le_zpow_right₀ hten hk')
      _ < (10 : ℚ) ^ (39 : ℤ) := by norm_num

/-- Settles O33: `k` is `dexp(|r|)`, so the digits are the floor of `|r|` on the grid `10^(k-10)` (`abs_trunc11`), which
is eleven digits long and less than one unit below `|r|`; and DSRC lies in `10^-39 .. 10^39` (R144, R145). -/
theorem truncationIsTowardZeroToElevenDigits : Obligations.TruncationIsTowardZeroToElevenDigits := by
  refine ⟨fun r hr => ?_, fun v ds k hb5 hk hk' => ?_⟩
  · have hpos : 0 < |r| := abs_pos.2 hr
    have hlo : (10 : ℚ) ^ dexp |r| ≤ |r| := zpow_dexp_le hpos
    have hhi : |r| < (10 : ℚ) ^ (dexp |r| + 1) := lt_zpow_dexp_add_one hpos
    have hunit : (0 : ℚ) < (10 : ℚ) ^ (dexp |r| - 10) := by positivity
    have hdigits : ⌊|r| / (10 : ℚ) ^ (dexp |r| - 10)⌋₊ < 10 ^ 11 := floor_div_grid_lt_pow 10 hpos.le hhi
    refine ⟨dexp |r|, ⌊|r| / (10 : ℚ) ^ (dexp |r| - 10)⌋₊, hlo, hhi, pow_le_floor_div_grid 10 hlo,
      Nat.le_sub_one_of_lt hdigits, rfl, ?_, ?_, ?_, trunc11_eq_self_of_hasDigits hr⟩
    · rw [trunc11_eq, magnitude_eq_abs, sgn_eq_ite hr]
    · rw [abs_trunc11 hr, sub_nonneg]
      exact floor_div_mul_le hpos.le hunit
    · rw [abs_trunc11 hr, sub_lt_iff_lt_add']
      exact lt_floor_div_mul_add hunit
  · obtain ⟨hlo, hhi⟩ := abs_digitSource_rawPattern_bounds ds hb5
    have hlow := hlo.trans_lt hk'
    have hupp := hk.trans_lt hhi
    rw [zpow_lt_zpow_iff_right₀ (by norm_num)] at hlow hupp
    omega

end Sys2Proof.Machine
end

section
/-! One step on the ports (10_state.md, 20_memory.md section 4, 60_exceptions.md, 70_reset_and_hazards.md): what each
input and the block's turn do, and when a step stops. -/

namespace Sys2Proof.Machine

/-! ## Reset, reading, presenting -/

/-- Settles O1: `State.resetWith` sets each field as R190 and R191 say. -/
theorem resetLeavesNoRequestAndNoResponse : Obligations.ResetLeavesNoRequestAndNoResponse :=
  ⟨fun _ => ⟨rfl, rfl, rfl, rfl⟩, rfl⟩

/-- Settles O6: the step is `State.present` at the state without that input. -/
theorem presentingARequestPutsItInFlight : Obligations.PresentingARequestPutsItInFlight :=
  fun _ _ _ h => step_of_cons h

theorem step_of_read_of_rsp_none {s : State} {rest : List Input} (hi : s.inputs = .read :: rest) (hr : s.rsp = none) :
    step s = .fault .readBeforeResponse := by
  rw [step_of_cons hi]
  simp only [consume, hr]

theorem step_of_read_of_rsp_some {s : State} {rest : List Input} {r : Response} (hi : s.inputs = .read :: rest)
    (hr : s.rsp = some r) : step s = .next { s with inputs := rest } := by
  rw [step_of_cons hi]
  simp only [consume, hr]

/-- Settles O4: the two cases of `consume .read`; and what `RSP` holds is by the invariant the response of an answer. -/
theorem readingAnEmptyResponsePortFaults : Obligations.ReadingAnEmptyResponsePortFaults := by
  refine ⟨fun s rest hi => ⟨step_of_read_of_rsp_none hi, fun r => step_of_read_of_rsp_some hi⟩, fun s hinv hnone => ?_⟩
  cases hrsp : s.rsp with
  | none => rfl
  | some r =>
    obtain ⟨a, ha, -⟩ := hinv.portAnswered r hrsp
    rw [hnone] at ha
    cases ha

theorem serve_completes (s : State) : ∃ t, serve s = .next t := by
  obtain ⟨-, h⟩ | ⟨_, _, _, -, -, h⟩ := serve_cases s
  · exact ⟨_, h⟩
  · exact ⟨_, h⟩

/-- Only a read of an empty `RSP` keeps a step from completing. -/
theorem step_completes {s : State} (h : ¬ (s.rsp = none ∧ ∃ rest, s.inputs = .read :: rest)) :
    ∃ t, step s = .next t := by
  cases hi : s.inputs with
  | nil => rw [step_of_nil hi]; exact serve_completes s
  | cons i rest =>
    cases i with
    | present bytes => exact ⟨_, step_of_cons hi⟩
    | reset => exact ⟨_, step_of_cons hi⟩
    | serve => rw [step_of_cons hi]; exact serve_completes _
    | read =>
      cases hr : s.rsp with
      | none => exact absurd ⟨hr, rest, hi⟩ h
      | some r => exact ⟨_, step_of_read_of_rsp_some hi hr⟩

/-- Settles O5: a read of an empty `RSP` faults, and every other step completes (`step_completes`). -/
theorem onlyAPrematureReadStops : Obligations.OnlyAPrematureReadStops := by
  intro s
  by_cases h : s.rsp = none ∧ ∃ rest, s.inputs = .read :: rest
  · obtain ⟨hr, rest, hi⟩ := h
    have hfault := step_of_read_of_rsp_none hi hr
    exact ⟨fun r => by simp [hfault], fun _ => ⟨hr, rest, hi⟩, fun _ => ⟨_, hfault⟩⟩
  · obtain ⟨t, ht⟩ := step_completes h
    exact ⟨fun r => by simp [ht], fun ⟨f, hf⟩ => by simp [ht] at hf, fun h' => absurd h' h⟩

/-- Settles O7: nothing is in flight, so the turn takes nothing (`serve_of_nil`), whoever gives it to the block. -/
theorem noRequestNoResponse : Obligations.NoRequestNoResponse := by
  refine fun s hnil => ⟨fun hi => ?_, fun rest hi => ?_⟩
  · rw [step_of_nil hi, serve_of_nil hnil]
  · rw [step_of_cons hi]
    exact serve_of_nil hnil

/-! ## The block's turn -/

/-- The request taken and those left are the requests in flight, rearranged. -/
theorem State.take?_perm {s t : State} {r : Request} (h : s.take? = some (r, t)) :
    (r :: t.inFlight).Perm s.inFlight := by
  obtain ⟨hr, rfl⟩ := State.take?_eq_some h
  obtain ⟨hlt, rfl⟩ := List.getElem?_eq_some_iff.1 hr
  exact List.getElem_cons_eraseIdx_perm hlt

/-- Settles O8: the index chosen is in range whatever `Config.serviceOrder` is, so a turn with a request in flight takes
one (`State.take?_of_ne_nil`) and erases only it (R51). -/
theorem aTurnTakesOneRequestInFlight : Obligations.ATurnTakesOneRequestInFlight := by
  refine fun s => ⟨⟨fun hnone => ?_, State.take?_of_nil⟩, fun r t h => ?_⟩
  · by_contra hne
    obtain ⟨r, t, h⟩ := State.take?_of_ne_nil hne
    rw [hnone] at h
    cases h
  · have hperm := State.take?_perm h
    obtain ⟨-, rfl⟩ := State.take?_eq_some h
    exact ⟨hperm, rfl, rfl, rfl, rfl, rfl⟩

/-- Settles O9: processing is `exec` of what the bytes decode to, and the response on `RSP` is then delivered (R80). -/
theorem stepRunsTheDecodedInstruction : Obligations.StepRunsTheDecodedInstruction := by
  intro s t u r i htakes hdecode hexec resp hresp
  have hserve {s : State} (htake : s.take? = some (r, t)) :
      serve s = .next { u with answered := u.answered ++ [⟨r, resp⟩] } := by
    simp only [serve, htake, process, hdecode, hexec, delivering, State.deliver_of_rsp hresp]
  obtain ⟨hnil, htake⟩ | ⟨rest, hcons, htake⟩ := htakes
  · rw [step_of_nil hnil, hserve htake]
  · rw [step_of_cons hcons]
    exact hserve htake

/-- Settles O12: `step_eq_response` (R89). -/
theorem everyAnswerIsTheResponseFunction : Obligations.EveryAnswerIsTheResponseFunction :=
  fun _ _ _ => step_eq_response

/-- Settles O11: the response function of a length other than six is the error response (R81, R170). -/
theorem theErrorResponseIsCodeOneAndTheLength : Obligations.TheErrorResponseIsCodeOneAndTheLength := by
  intro s t r htakes hne
  rw [step_eq_response htakes, response_of_length_ne _ hne]

/-- Settles O13: both classes of the response function have the echo of R85, and the error response has none. -/
theorem echoIsThePresentedBytes : Obligations.EchoIsThePresentedBytes := by
  intro s t r htakes
  have hstep := step_eq_response htakes
  refine ⟨fun v hv => ?_, fun hne => ?_⟩
  · rw [hv, response_bytes] at hstep
    exact ⟨_, _, hstep, rfl, rfl⟩
  · rw [response_of_length_ne _ hne] at hstep
    exact ⟨_, _, _, hstep, rfl, rfl⟩

/-- The request that `withFetchWord` places is the one the coming turn takes, and those in flight before it stay. -/
theorem State.take?_placeNext (bytes : List Byte) (s : State) :
    (s.placeNext bytes).take? = some (⟨s.presented, bytes⟩,
      { s with presented := s.presented + 1, turn := s.turn + 1 }) := by
  have hle : chosenIndex s.turn (s.inFlight.length + 1) ≤ s.inFlight.length :=
    Nat.le_of_lt_succ (chosenIndex_lt s.turn (Nat.succ_pos _))
  have hlen : (s.placeNext bytes).inFlight.length = s.inFlight.length + 1 := by
    rw [State.placeNext_inFlight, List.length_insertIdx_of_le_length hle]
  unfold State.take?
  rw [hlen, State.placeNext_turn, State.placeNext_inFlight, List.getElem?_insertIdx_self, if_pos hle,
    List.eraseIdx_insertIdx_self]
  rfl

/-- `withFetchWord` gives the block the turn at which it takes the word's request (log entry 6). -/
theorem State.takes_withFetchWord (s : State) (nbits w : Nat) :
    (s.withFetchWord nbits w).Takes ⟨s.presented, tableWordBytes nbits w⟩
      { s with presented := s.presented + 1, turn := s.turn + 1 } := by
  have htake := State.take?_placeNext (tableWordBytes nbits w) s
  obtain ⟨cfg, inputs, inFlight, rsp, answered, presented, turn⟩ := s
  cases inputs with
  | nil => exact .inl ⟨rfl, htake⟩
  | cons i rest => exact .inr ⟨i :: rest, rfl, htake⟩

/-- Settles O24: the next step takes the placed request (`State.takes_withFetchWord`) and answers it by the response
function, which is `exec` of the word's class (`exec_decodeSix`). -/
theorem aPlacedWordRunsNext : Obligations.APlacedWordRunsNext := by
  intro s w i hw hdecode
  obtain rfl := Option.some.inj (hdecode.symm.trans (decodeTableWord_eq_decodeSix hw))
  have hbytes : tableWordBytes 48 w = (wordRawValue (BitVec.ofNat 48 w)).bytes := by
    rw [tableWordBytes, Nat.mod_eq_of_lt hw, bytes_wordRawValue]
  refine ⟨{ s with presented := s.presented + 1, turn := s.turn + 1 }, _, _, exec_decodeSix _ _, rfl, rfl, rfl, rfl,
    rfl, ?_⟩
  rw [← hbytes]
  exact step_eq_response (State.takes_withFetchWord s 48 w)

end Sys2Proof.Machine
end

section
/-! Runs (10_state.md section 2, 70_reset_and_hazards.md): the requests of a state, what one step does to them, and the
invariants, the progress and the programs that follow from it. -/

namespace Sys2Proof.Machine

/-! ## What a step does to the requests -/

/-- The requests that the state knows of: those in flight and those answered. -/
def State.requests (s : State) : List Request := s.inFlight ++ s.answered.map (·.request)

/-- The block's turn moves the request it takes from those in flight to those answered. -/
theorem serve_frame {s t : State} (h : serve s = .next t) :
    t.requests.Perm s.requests ∧ t.presented = s.presented ∧ t.inputs = s.inputs ∧ t.config = s.config := by
  obtain ⟨-, hidle⟩ | ⟨r, u, resp, htake, -, hserve⟩ := serve_cases s
  · cases hidle.symm.trans h
    exact ⟨.refl _, rfl, rfl, rfl⟩
  · cases hserve.symm.trans h
    have hperm := State.take?_perm htake
    obtain ⟨-, rfl⟩ := State.take?_eq_some htake
    refine ⟨?_, rfl, rfl, rfl⟩
    simp only [State.requests, List.map_append, List.map_cons, List.map_nil, ← List.append_assoc]
    exact (List.perm_append_singleton _ _).trans (hperm.append_right _)

/-- What a step does to the requests and to what is still to be presented: the block's turn and a read only rearrange
them, presenting adds one under the next number, and reset drops those in flight. -/
theorem step_requests_cases {s t : State} (h : step s = .next t) :
    (t.requests.Perm s.requests ∧ t.presented = s.presented ∧ presentations t.inputs = presentations s.inputs) ∨
    (∃ bytes, t.requests.Perm (⟨s.presented, bytes⟩ :: s.requests) ∧ t.presented = s.presented + 1 ∧
      presentations s.inputs = bytes :: presentations t.inputs) ∨
    ((∃ rest, s.inputs = .reset :: rest) ∧ t.requests.Sublist s.requests ∧ t.presented = s.presented ∧
      presentations t.inputs = presentations s.inputs) := by
  rcases step_cases h with ⟨-, hserve⟩ | ⟨rest, hi, hserve⟩ | ⟨bytes, rest, hi, rfl⟩ | ⟨rest, resp, hi, -, rfl⟩ |
    ⟨rest, hi, rfl⟩
  · obtain ⟨hperm, hpres, hin, -⟩ := serve_frame hserve
    exact .inl ⟨hperm, hpres, by rw [hin]⟩
  · obtain ⟨hperm, hpres, hin, -⟩ := serve_frame hserve
    exact .inl ⟨hperm, hpres, by rw [hin, hi]; rfl⟩
  · refine .inr (.inl ⟨bytes, ?_, rfl, by rw [hi]; rfl⟩)
    simp only [State.requests, State.present_inFlight, State.present_answered]
    exact (List.perm_append_singleton _ _).append_right _
  · exact .inl ⟨.refl _, rfl, by rw [hi]; rfl⟩
  · exact .inr (.inr ⟨⟨rest, hi⟩, List.sublist_append_right _ _, rfl, by rw [hi]; rfl⟩)

/-! ## The invariant of the ports -/

/-- Presentation numbers tell the requests apart and are below the count. -/
def State.IdsFresh (s : State) : Prop :=
  (s.requests.map (·.id)).Nodup ∧ ∀ r ∈ s.requests, r.id < s.presented

theorem step_keeps_idsFresh {s t : State} (hs : s.IdsFresh) (h : step s = .next t) : t.IdsFresh := by
  obtain ⟨hnodup, hlt⟩ := hs
  rcases step_requests_cases h with ⟨hperm, hpres, -⟩ | ⟨bytes, hperm, hpres, -⟩ | ⟨-, hsub, hpres, -⟩
  · exact ⟨(hperm.map _).nodup_iff.2 hnodup, fun r hr => hpres ▸ hlt r (hperm.subset hr)⟩
  · refine ⟨(hperm.map _).nodup_iff.2 (List.nodup_cons.2 ⟨fun hmem => ?_, hnodup⟩), fun r hr => ?_⟩
    · obtain ⟨r, hr, hid⟩ := List.mem_map.1 hmem
      exact absurd hid (hlt r hr).ne
    · rcases List.mem_cons.1 (hperm.subset hr) with rfl | hold
      · simp [hpres]
      · have := hlt r hold
        omega
  · exact ⟨hnodup.sublist (hsub.map _), fun r hr => hpres ▸ hlt r (hsub.subset hr)⟩

/-- `RSP` shows only the response of an answered request. -/
def State.PortAnswered (s : State) : Prop := ∀ r, s.rsp = some r → ∃ a ∈ s.answered, a.response = r

theorem serve_keeps_portAnswered {s t : State} (hs : s.PortAnswered) (h : serve s = .next t) : t.PortAnswered := by
  obtain ⟨-, hidle⟩ | ⟨r, u, resp, -, -, hserve⟩ := serve_cases s
  · cases hidle.symm.trans h
    exact hs
  · cases hserve.symm.trans h
    exact fun r' hr' => ⟨_, List.mem_append_right _ (List.mem_singleton_self _), Option.some.inj hr'⟩

theorem step_keeps_portAnswered {s t : State} (hs : s.PortAnswered) (h : step s = .next t) : t.PortAnswered := by
  rcases step_cases h with ⟨-, hserve⟩ | ⟨rest, -, hserve⟩ | ⟨bytes, rest, -, rfl⟩ | ⟨rest, resp, -, -, rfl⟩ |
    ⟨rest, -, rfl⟩
  · exact serve_keeps_portAnswered hs hserve
  · exact serve_keeps_portAnswered (s := { s with inputs := rest }) hs hserve
  · exact hs
  · exact hs
  · exact fun r hr => nomatch hr

theorem State.inv_iff {s : State} : s.Inv ↔ s.IdsFresh ∧ s.AnswersBy s.config ∧ s.PortAnswered :=
  ⟨fun ⟨hids, hlt, hans, hport⟩ => ⟨⟨hids, hlt⟩, ⟨rfl, hans⟩, hport⟩,
   fun ⟨⟨hids, hlt⟩, ⟨_, hans⟩, hport⟩ => ⟨hids, hlt, hans, hport⟩⟩

/-- Settles O44: each part of the invariant is kept by a step of its own accord. -/
theorem everyStepKeepsTheInvariant : Obligations.EveryStepKeepsTheInvariant := by
  intro s t hinv h
  obtain ⟨hids, hans, hport⟩ := State.inv_iff.1 hinv
  obtain ⟨hcfg, hans'⟩ := step_keeps_answersBy s t hans h
  exact State.inv_iff.2 ⟨step_keeps_idsFresh hids h, ⟨rfl, hcfg ▸ hans'⟩, step_keeps_portAnswered hport h⟩

theorem startWith_inv (cfg : Config) (inputs : List Input) : (State.startWith cfg inputs).Inv where
  idsDistinct := List.nodup_nil
  idsPresented := fun _ hr => nomatch hr
  answersRight := fun _ ha => nomatch ha
  portAnswered := fun _ hr => nomatch hr

/-- Settles O45: after reset there is no request, no answer and no response to speak of. -/
theorem theStateAfterResetMeetsTheInvariant : Obligations.TheStateAfterResetMeetsTheInvariant :=
  ⟨startWith_inv, startWith_inv Config.default []⟩

theorem step_config {s t : State} (h : step s = .next t) : t.config = s.config := by
  rcases step_cases h with ⟨-, hserve⟩ | ⟨rest, -, hserve⟩ | ⟨bytes, rest, -, rfl⟩ | ⟨rest, resp, -, -, rfl⟩ |
    ⟨rest, -, rfl⟩
  · obtain ⟨-, -, -, hcfg⟩ := serve_frame hserve
    exact hcfg
  · obtain ⟨-, -, -, hcfg⟩ := serve_frame hserve
    exact hcfg
  · rfl
  · rfl
  · rfl

/-- Settles O3: no step writes the configuration, so no run does (R33). -/
theorem configurationIsConstant : Obligations.ConfigurationIsConstant :=
  fun _ s _ hrun =>
    runSteps_keeps (P := fun u => u.config = s.config) (fun _ _ hu h => (step_config h).trans hu) rfl hrun

/-! ## Reset -/

/-- The presentation number `id` has been given out, and no request of the state bears it. -/
def State.Gone (id : Nat) (s : State) : Prop := id < s.presented ∧ ∀ r ∈ s.requests, r.id ≠ id

/-- A number once gone is not given out again. -/
theorem step_keeps_gone {id : Nat} (s t : State) (hs : s.Gone id) (h : step s = .next t) : t.Gone id := by
  obtain ⟨hlt, hne⟩ := hs
  rcases step_requests_cases h with ⟨hperm, hpres, -⟩ | ⟨bytes, hperm, hpres, -⟩ | ⟨-, hsub, hpres, -⟩
  · exact ⟨hpres ▸ hlt, fun r hr => hne r (hperm.subset hr)⟩
  · refine ⟨by omega, fun r hr => ?_⟩
    rcases List.mem_cons.1 (hperm.subset hr) with rfl | hold
    · exact hlt.ne'
    · exact hne r hold
  · exact ⟨hpres ▸ hlt, fun r hr => hne r (hsub.subset hr)⟩

/-- A request in flight has not been answered. -/
theorem State.IdsFresh.id_ne_of_answered {s : State} (hs : s.IdsFresh) {r : Request} (hr : r ∈ s.inFlight) {a : Answer}
    (ha : a ∈ s.answered) : a.request.id ≠ r.id := by
  obtain ⟨hnodup, -⟩ := hs
  rw [State.requests, List.map_append, List.nodup_append] at hnodup
  obtain ⟨-, -, hdisj⟩ := hnodup
  exact (hdisj _ (List.mem_map_of_mem hr) _ (List.mem_map_of_mem (List.mem_map_of_mem ha))).symm

/-- Settles O2: reset empties the list of requests in flight but not that of the answers, in which none of them stood
(`State.IdsFresh.id_ne_of_answered`); so their numbers are gone, and stay gone in every run (R190). -/
theorem resetCutsOffRequestsInFlight : Obligations.ResetCutsOffRequestsInFlight := by
  intro s rest hinv hi
  obtain ⟨hids, -, -⟩ := State.inv_iff.1 hinv
  have ⟨_, hbelow⟩ := hids
  have hstep : step s = .next (State.applyReset { s with inputs := rest }) := step_of_cons hi
  refine ⟨⟨_, hstep, rfl, rfl, rfl, rfl, rfl, fun bytes more hrest => ?_⟩, fun r hr k u hrun a ha => ?_⟩
  · subst hrest
    exact ⟨_, presentingARequestPutsItInFlight _ bytes more rfl, rfl, rfl⟩
  · cases k with
    | zero =>
      cases hrun
      exact hids.id_ne_of_answered hr ha
    | succ k =>
      obtain ⟨v, hv, hrun⟩ := runSteps_succ_eq_next.1 hrun
      cases hstep.symm.trans hv
      have hgone : (State.applyReset { s with inputs := rest }).Gone r.id := by
        refine ⟨hbelow r (List.mem_append_left _ hr), fun r' hr' => ?_⟩
        obtain ⟨a', ha', rfl⟩ := List.mem_map.1 hr'
        exact hids.id_ne_of_answered hr ha'
      obtain ⟨-, hne⟩ := runSteps_keeps step_keeps_gone hgone hrun
      exact hne _ (List.mem_append_right _ (List.mem_map_of_mem ha))

/-! ## Every answer belongs to a request presented -/

/-- Of the byte sequences `all` to be presented in a run, `presented` many have been, and every request has the one of
its number. -/
def State.RequestsFrom (all : List (List Byte)) (s : State) : Prop :=
  ∃ seen, all = seen ++ presentations s.inputs ∧ seen.length = s.presented ∧
    ∀ r ∈ s.requests, seen[r.id]? = some r.bytes

theorem step_keeps_requestsFrom {all : List (List Byte)} (s t : State) (hs : s.RequestsFrom all)
    (h : step s = .next t) : t.RequestsFrom all := by
  obtain ⟨seen, hall, hlen, hbytes⟩ := hs
  rcases step_requests_cases h with ⟨hperm, hpres, hin⟩ | ⟨bytes, hperm, hpres, hin⟩ | ⟨-, hsub, hpres, hin⟩
  · exact ⟨seen, hin ▸ hall, hpres ▸ hlen, fun r hr => hbytes r (hperm.subset hr)⟩
  · refine ⟨seen ++ [bytes], by rw [hall, hin, List.append_assoc]; rfl, by simp [hlen, hpres], fun r hr => ?_⟩
    rcases List.mem_cons.1 (hperm.subset hr) with rfl | hold
    · rw [← hlen]
      exact List.getElem?_concat_length
    · have hsome := hbytes r hold
      obtain ⟨hlt, -⟩ := List.getElem?_eq_some_iff.1 hsome
      rw [List.getElem?_append_left hlt, hsome]
  · exact ⟨seen, hin ▸ hall, hpres ▸ hlen, fun r hr => hbytes r (hsub.subset hr)⟩

/-- Settles O47: the invariant keeps the numbers of the answered requests apart, and `State.RequestsFrom` their bytes
(R23). -/
theorem eachRequestIsAnsweredAtMostOnce : Obligations.EachRequestIsAnsweredAtMostOnce := by
  intro cfg inputs k t hrun
  obtain ⟨hids₀, -, -⟩ := State.inv_iff.1 (startWith_inv cfg inputs)
  have hids : t.IdsFresh := runSteps_keeps (fun _ _ => step_keeps_idsFresh) hids₀ hrun
  have hstart : (State.startWith cfg inputs).RequestsFrom (presentations inputs) :=
    ⟨[], rfl, rfl, fun _ hr => nomatch hr⟩
  obtain ⟨seen, hall, -, hbytes⟩ := runSteps_keeps step_keeps_requestsFrom hstart hrun
  constructor
  · obtain ⟨hnodup, -⟩ := hids
    have hsub : (t.answered.map (·.request)).Sublist t.requests := List.sublist_append_right _ _
    simpa only [List.map_map, Function.comp_def] using hnodup.sublist (hsub.map (·.id))
  · intro a ha
    have hsome := hbytes a.request (List.mem_append_right _ (List.mem_map_of_mem ha))
    obtain ⟨hlt, -⟩ := List.getElem?_eq_some_iff.1 hsome
    rw [hall, List.getElem?_append_left hlt, hsome]

/-! ## Every request is answered -/

/-- A bound on the steps to come: an input takes one, and at most one more for the request that it presents. -/
def State.workLeft (s : State) : Nat := 2 * s.inputs.length + s.inFlight.length

theorem serve_length_inFlight {s t : State} (h : serve s = .next t) : t.inFlight.length = s.inFlight.length - 1 := by
  obtain ⟨hnil, hidle⟩ | ⟨r, u, resp, htake, -, hserve⟩ := serve_cases s
  · cases hidle.symm.trans h
    simp [hnil]
  · cases hserve.symm.trans h
    have hlen := (State.take?_perm htake).length_eq
    simp only [List.length_cons] at hlen
    exact Nat.eq_sub_of_add_eq hlen

theorem step_inputs {s t : State} (h : step s = .next t) : t.inputs = s.inputs.tail := by
  rcases step_cases h with ⟨hi, hserve⟩ | ⟨rest, hi, hserve⟩ | ⟨bytes, rest, hi, rfl⟩ | ⟨rest, resp, hi, -, rfl⟩ |
    ⟨rest, hi, rfl⟩
  · obtain ⟨-, -, hin, -⟩ := serve_frame hserve
    rw [hin, hi]
    rfl
  · obtain ⟨-, -, hin, -⟩ := serve_frame hserve
    rw [hin, hi]
    rfl
  all_goals
    rw [hi]
    rfl

theorem step_workLeft {s t : State} (h : step s = .next t) : t.workLeft ≤ s.workLeft - 1 := by
  unfold State.workLeft
  rw [step_inputs h, List.length_tail]
  rcases step_cases h with ⟨hi, hserve⟩ | ⟨rest, hi, hserve⟩ | ⟨bytes, rest, hi, rfl⟩ | ⟨rest, resp, hi, -, rfl⟩ |
    ⟨rest, hi, rfl⟩
  · rw [serve_length_inFlight hserve, hi]
    simp
  · rw [serve_length_inFlight hserve, hi]
    simp
    omega
  all_goals
    rw [hi]
    simp
    omega

theorem runSteps_workLeft {k : Nat} {s t : State} (hrun : runSteps k s = .next t) : t.workLeft ≤ s.workLeft - k := by
  induction k generalizing s with
  | zero =>
    cases hrun
    exact le_rfl
  | succ k ih =>
    obtain ⟨u, hu, hrest⟩ := runSteps_succ_eq_next.1 hrun
    have hfirst := step_workLeft hu
    have hothers := ih hrest
    omega

/-- No reset is to come in `s`, which a run without reset has reached from `s₀`: the requests in flight then are requests
now, and so is one for every number given out since. -/
def State.Since (s₀ s : State) : Prop :=
  (∀ i ∈ s.inputs, i ≠ .reset) ∧ (∀ r ∈ s₀.inFlight, r ∈ s.requests) ∧
    s.presented + (presentations s.inputs).length = s₀.presented + (presentations s₀.inputs).length ∧
    ∀ id, s₀.presented ≤ id → id < s.presented → ∃ r ∈ s.requests, r.id = id

theorem State.since_self {s : State} (h : ∀ i ∈ s.inputs, i ≠ .reset) : s.Since s :=
  ⟨h, fun _ hr => List.mem_append_left _ hr, rfl, fun id hle hlt => absurd hle (by omega)⟩

theorem step_keeps_since {s₀ : State} (s t : State) (hs : s₀.Since s) (h : step s = .next t) : s₀.Since t := by
  obtain ⟨hreset, hold, hcount, hnew⟩ := hs
  have hreset' : ∀ i ∈ t.inputs, i ≠ .reset := fun i hi => hreset i (List.mem_of_mem_tail (step_inputs h ▸ hi))
  rcases step_requests_cases h with ⟨hperm, hpres, hin⟩ | ⟨bytes, hperm, hpres, hin⟩ | ⟨⟨rest, hi⟩, -⟩
  · refine ⟨hreset', fun r hr => hperm.symm.subset (hold r hr), by rw [hpres, hin, hcount], fun id hle hlt => ?_⟩
    obtain ⟨r, hr, hid⟩ := hnew id hle (hpres ▸ hlt)
    exact ⟨r, hperm.symm.subset hr, hid⟩
  · have hmem {r : Request} (hr : r ∈ s.requests) : r ∈ t.requests := hperm.symm.subset (List.mem_cons_of_mem _ hr)
    refine ⟨hreset', fun r hr => hmem (hold r hr), ?_, fun id hle hlt => ?_⟩
    · rw [hin, List.length_cons] at hcount
      omega
    · rcases Nat.lt_or_ge id s.presented with hlow | hhigh
      · obtain ⟨r, hr, hid⟩ := hnew id hle hlow
        exact ⟨r, hmem hr, hid⟩
      · exact ⟨⟨s.presented, bytes⟩, hperm.symm.subset List.mem_cons_self, show s.presented = id by omega⟩
  · exact absurd rfl (hreset .reset (hi ▸ List.mem_cons_self))

/-- Settles O50: so many steps leave no input and no request in flight (`runSteps_workLeft`), so what `State.Since` keeps
among the requests stands among the answers (R196). -/
theorem everyRequestIsAnsweredInARunWithoutFault : Obligations.EveryRequestIsAnsweredInARunWithoutFault := by
  intro s t hreset hrun
  have hwork : t.workLeft ≤ s.workLeft - s.workLeft := runSteps_workLeft hrun
  simp only [State.workLeft, Nat.sub_self, Nat.le_zero, Nat.add_eq_zero_iff, Nat.mul_eq_zero, List.length_eq_zero_iff,
    OfNat.ofNat_ne_zero, false_or] at hwork
  obtain ⟨hinputs, hflight⟩ := hwork
  obtain ⟨-, hold, hcount, hnew⟩ := runSteps_keeps step_keeps_since (State.since_self hreset) hrun
  rw [hinputs] at hcount
  rw [State.requests, hflight, List.nil_append] at hold hnew
  refine ⟨hinputs, hflight, fun r hr => List.mem_map.1 (hold r hr), hcount, fun id hle hlt => ?_⟩
  obtain ⟨r, hr, hid⟩ := hnew id hle hlt
  obtain ⟨a, ha, rfl⟩ := List.mem_map.1 hr
  exact ⟨a, ha, hid⟩

/-- Where every state with `P` completes its step in a state with `P`, runs of every length complete. -/
theorem runSteps_completes {P : State → Prop} (hstep : ∀ s, P s → ∃ t, step s = .next t ∧ P t) (k : Nat) {s : State}
    (hs : P s) : ∃ t, runSteps k s = .next t := by
  induction k generalizing s with
  | zero => exact ⟨s, rfl⟩
  | succ k ih =>
    obtain ⟨u, hu, hPu⟩ := hstep s hs
    obtain ⟨t, ht⟩ := ih hPu
    exact ⟨t, runSteps_succ_eq_next.2 ⟨u, hu, ht⟩⟩

/-- No reset is to come, and no read while `RSP` is empty. -/
def State.Undisturbed (s : State) : Prop :=
  (∀ i ∈ s.inputs, i ≠ .reset) ∧ (s.rsp = none → ∀ i ∈ s.inputs, i ≠ .read)

theorem serve_rsp_eq_none {s t : State} (h : serve s = .next t) (hnone : t.rsp = none) : s.rsp = none := by
  obtain ⟨-, hidle⟩ | ⟨r, u, resp, -, -, hserve⟩ := serve_cases s
  · cases hidle.symm.trans h
    exact hnone
  · cases hserve.symm.trans h
    cases hnone

/-- Only reset empties `RSP`. -/
theorem step_rsp_eq_none {s t : State} (hreset : ∀ i ∈ s.inputs, i ≠ .reset) (h : step s = .next t)
    (hnone : t.rsp = none) : s.rsp = none := by
  rcases step_cases h with ⟨-, hserve⟩ | ⟨rest, -, hserve⟩ | ⟨bytes, rest, -, rfl⟩ | ⟨rest, resp, -, -, rfl⟩ |
    ⟨rest, hi, rfl⟩
  · exact serve_rsp_eq_none hserve hnone
  · exact serve_rsp_eq_none (s := { s with inputs := rest }) hserve hnone
  · exact hnone
  · exact hnone
  · exact absurd rfl (hreset .reset (hi ▸ List.mem_cons_self))

theorem step_of_undisturbed (s : State) (hs : s.Undisturbed) : ∃ t, step s = .next t ∧ t.Undisturbed := by
  obtain ⟨hreset, hread⟩ := hs
  obtain ⟨t, ht⟩ : ∃ t, step s = .next t :=
    step_completes fun ⟨hr, rest, hi⟩ => hread hr .read (hi ▸ List.mem_cons_self) rfl
  have hmem {i : Input} (hi : i ∈ t.inputs) : i ∈ s.inputs := List.mem_of_mem_tail (step_inputs ht ▸ hi)
  exact ⟨t, ht, fun i hi => hreset i (hmem hi), fun hnone i hi => hread (step_rsp_eq_none hreset ht hnone) i (hmem hi)⟩

/-- Settles O48: an undisturbed run meets no fault, so `everyRequestIsAnsweredInARunWithoutFault` speaks of it. -/
theorem everyRequestIsAnswered : Obligations.EveryRequestIsAnswered := by
  intro s hreset hread
  obtain ⟨t, hrun⟩ := runSteps_completes step_of_undisturbed (2 * s.inputs.length + s.inFlight.length) ⟨hreset, hread⟩
  exact ⟨t, hrun, everyRequestIsAnsweredInARunWithoutFault s t hreset hrun⟩

/-! ## Programs -/

/-- Nothing is in flight, and the requests presented have been answered in order of presentation, with `responses`. -/
def State.AnsweredInOrder (responses : List Response) (s : State) : Prop :=
  s.inFlight = [] ∧ s.answered.map (·.request.id) = List.range s.presented ∧ s.answered.map (·.response) = responses

theorem find?_of_nodup_keys {α β : Type} [BEq β] [LawfulBEq β] {key : α → β} {l : List α} (hnodup : (l.map key).Nodup)
    {a : α} (ha : a ∈ l) : l.find? (fun x => key x == key a) = some a := by
  induction l with
  | nil => cases ha
  | cons x l ih =>
    obtain ⟨hx, hl⟩ := List.nodup_cons.1 hnodup
    rcases List.mem_cons.1 ha with rfl | hmem
    · simp
    · have hne : key x ≠ key a := fun heq => hx (heq ▸ List.mem_map_of_mem hmem)
      simp [hne, ih hl hmem]

/-- The end state lists the responses in order of presentation number, which is here the order of the answers. -/
theorem State.AnsweredInOrder.endState_eq {responses : List Response} {s : State} (h : s.AnsweredInOrder responses) :
    s.endState = responses := by
  obtain ⟨-, hids, rfl⟩ := h
  have hnodup : (s.answered.map (·.request.id)).Nodup := hids ▸ List.nodup_range
  have hresp (a : Answer) (ha : a ∈ s.answered) : s.responseOf a.request.id = some a.response := by
    rw [State.responseOf, find?_of_nodup_keys hnodup ha]
    rfl
  rw [State.endState, ← hids, List.filterMap_map, ← List.filterMap_eq_map]
  exact List.filterMap_congr hresp

/-- Presenting a request and letting the block answer it: it is the only one in flight, so its answer comes next. -/
theorem steps_of_present_serve {s : State} {bytes : List Byte} {rest : List Input} {responses : List Response}
    (hi : s.inputs = .present bytes :: .serve :: rest) (hs : s.AnsweredInOrder responses) :
    ∃ t u, step s = .next t ∧ step t = .next u ∧ u.inputs = rest ∧ u.config = s.config ∧
      u.AnsweredInOrder (responses ++ [response s.config bytes]) := by
  obtain ⟨hnil, hids, hresp⟩ := hs
  have htakes : (State.present bytes { s with inputs := .serve :: rest }).Takes ⟨s.presented, bytes⟩
      { s with inputs := rest, presented := s.presented + 1, turn := s.turn + 1 } := by
    refine .inr ⟨rest, rfl, ?_⟩
    simp [State.take?, State.present, hnil, chosenIndex]
  refine ⟨_, _, step_of_cons hi, step_eq_response htakes, rfl, rfl, hnil, ?_, ?_⟩
  · simp [hids, List.range_succ]
  · simp [hresp]

theorem runSteps_program {cfg : Config} (lines : List (List Byte)) {s : State} {responses : List Response}
    (hi : s.inputs = lines.flatMap fun bytes => [Input.present bytes, Input.serve]) (hcfg : s.config = cfg)
    (hs : s.AnsweredInOrder responses) :
    ∃ t, runSteps (2 * lines.length) s = .next t ∧ t.AnsweredInOrder (responses ++ lines.map (response cfg)) := by
  induction lines generalizing s responses with
  | nil => exact ⟨s, rfl, by simpa using hs⟩
  | cons bytes lines ih =>
    obtain ⟨t, u, hst, htu, hin, hcfg', hu⟩ := steps_of_present_serve hi hs
    rw [hcfg] at hu
    obtain ⟨w, hrun, hw⟩ := ih hin (hcfg'.trans hcfg) hu
    refine ⟨w, runSteps_succ_eq_next.2 ⟨t, hst, runSteps_succ_eq_next.2 ⟨u, htu, hrun⟩⟩, ?_⟩
    simpa using hw

/-- Settles O49: by induction on the lines (`runSteps_program`), each of which is answered alone
(`steps_of_present_serve`). -/
theorem requestsInTurnAreAnsweredInTurn : Obligations.RequestsInTurnAreAnsweredInTurn := by
  intro cfg lines
  obtain ⟨t, hrun, ht⟩ := runSteps_program (s := State.ofProgram cfg lines) lines rfl rfl ⟨rfl, rfl, rfl⟩
  exact ⟨t, hrun, ht.1, ht.endState_eq⟩

end Sys2Proof.Machine
end

section
/-! The encoding both ways (30_encoding.md, 20_memory.md section 2) and the two classes as the spec writes them out
(40_converter.md). -/

namespace Sys2Proof.Machine

/-! ## Bytes and instructions -/

theorem wf_decodeSix (v : RawValue) : (decodeSix v).wf = true := by
  by_cases h : v.b5 = 0
  · rw [decodeSix_of_b5_eq_zero h]
    rfl
  · rw [decodeSix_of_b5_ne_zero h]
    exact bne_iff_ne.2 h

theorem encode_decodeSix (v : RawValue) : encode (decodeSix v) = v.bytes := by
  by_cases h : v.b5 = 0
  · rw [decodeSix_of_b5_eq_zero h, RawValue.bytes, h]
    rfl
  · rw [decodeSix_of_b5_ne_zero h]
    rfl

theorem decode_encode {i : Instr} (hwf : i.wf = true) : decode (encode i) = .ok i := by
  cases i with
  | decodeZero b0 b1 b2 b3 b4 => rfl
  | decodeNormal b0 b1 b2 b3 b4 b5 =>
    exact congrArg Except.ok (decodeSix_of_b5_ne_zero (v := ⟨b0, b1, b2, b3, b4, b5⟩) (bne_iff_ne.1 hwf))

/-- Settles O20: only six bytes decode, and then by `decodeSix`, which `encode` undoes (R60, R67). -/
theorem encodingADecodedRequestGivesItBack : Obligations.EncodingADecodedRequestGivesItBack := by
  intro bytes i h
  have hlen : bytes.length = 6 := by
    by_contra hne
    rw [decode_of_length_ne hne] at h
    cases h
  obtain ⟨v, rfl⟩ := exists_rawValue hlen
  obtain rfl := Except.ok.inj ((decode_bytes v).symm.trans h)
  exact ⟨wf_decodeSix v, encode_decodeSix v⟩

/-! ## Table words -/

/-- The bytes of the word of six bytes are those bytes. -/
theorem wordRawValue_word (v : RawValue) : wordRawValue v.word = v := by
  obtain ⟨b0, b1, b2, b3, b4, b5⟩ := v
  simp only [wordRawValue, RawValue.word, RawValue.mk.injEq]
  refine ⟨?_, ?_, ?_, ?_, ?_, BitVec.extractLsb'_append_eq_right⟩
  · iterate 4 rw [BitVec.extractLsb'_append_eq_of_le (by decide)]
    exact BitVec.extractLsb'_append_eq_left
  · iterate 4 rw [BitVec.extractLsb'_append_eq_of_le (by decide)]
    exact BitVec.extractLsb'_append_eq_right
  · iterate 3 rw [BitVec.extractLsb'_append_eq_of_le (by decide)]
    exact BitVec.extractLsb'_append_eq_right
  · iterate 2 rw [BitVec.extractLsb'_append_eq_of_le (by decide)]
    exact BitVec.extractLsb'_append_eq_right
  · rw [BitVec.extractLsb'_append_eq_of_le (by decide)]
    exact BitVec.extractLsb'_append_eq_right

theorem word_wordRawValue (w : Word48) : (wordRawValue w).word = w := by
  simp only [wordRawValue, RawValue.word]
  rw [BitVec.extractLsb'_append_extractLsb'_eq_extractLsb' (show 40 = 32 + 8 from rfl),
    BitVec.extractLsb'_append_extractLsb'_eq_extractLsb' (show 32 = 24 + 8 from rfl),
    BitVec.extractLsb'_append_extractLsb'_eq_extractLsb' (show 24 = 16 + 8 from rfl),
    BitVec.extractLsb'_append_extractLsb'_eq_extractLsb' (show 16 = 8 + 8 from rfl),
    BitVec.extractLsb'_append_extractLsb'_eq_extractLsb' (show 8 = 0 + 8 from rfl)]
  exact BitVec.extractLsb'_eq_self

/-- Settles O19: the six encoded bytes decode to the instruction (`decode_encode`), and the word of six bytes decodes as
they do (`wordRawValue_word`). -/
theorem decodingAnEncodingGivesItBack : Obligations.DecodingAnEncodingGivesItBack := by
  intro i hwf
  have hdecode := decode_encode hwf
  refine ⟨hdecode, fun v hv => ?_⟩
  rw [hv, decode_bytes] at hdecode
  rw [decodeTableWord_eq_decodeSix v.word.isLt, BitVec.ofNat_toNat, BitVec.setWidth_eq, wordRawValue_word,
    Except.ok.inj hdecode]

/-- Settles O22: the raw value is `wordRawValue`, whose word is the word it was cut from. -/
theorem tableWordHoldsTheBytesInOrder : Obligations.TableWordHoldsTheBytesInOrder :=
  fun w => ⟨wordRawValue w, rfl, word_wordRawValue w, rfl, rfl, rfl, rfl, rfl, rfl⟩

/-- Settles O23: each word is evaluated. -/
theorem wordsOfTheSpecDecode : Obligations.WordsOfTheSpecDecode := ⟨rfl, rfl, rfl, rfl, rfl⟩

/-! ## The two classes -/

/-- Settles O14: the meaning of the class with the echo written out (R83, R85). -/
theorem decodeZeroAnswersPositiveZero : Obligations.DecodeZeroAnswersPositiveZero :=
  fun _ _ _ _ _ _ => rfl

/-- Settles O15: the bytes are of this class, which answers by the response function (`exec_decodeSix`). -/
theorem decodeNormalAnswersTheTruncatedValue : Obligations.DecodeNormalAnswersTheTruncatedValue := by
  intro b0 b1 b2 b3 b4 b5 s hne
  have hexec := exec_decodeSix ⟨b0, b1, b2, b3, b4, b5⟩ s
  rw [decodeSix_of_b5_ne_zero hne, response_bytes, if_neg hne] at hexec
  exact hexec

/-! ## The bit map of RAW64 -/

/-- RAW64 is its parts side by side (R100 to R103, R125). -/
theorem rawPattern_eq_append (v : RawValue) : rawPattern v =
    v.b0.extractLsb' 7 1 ++ iexp11 (exp8 v.b5) ++
      (v.b0.extractLsb' 0 7 ++ v.b1 ++ v.b2 ++ v.b3 ++ v.b4 ++ (0 : BitVec 13)) := by
  rw [rawPattern, assemble_eq_append, frac52_eq_append, significand, sig39_eq_append, signBit_eq_extract,
    frag7_eq_extract]

theorem getLsbD_append_of_lt {m n : Nat} (x : BitVec m) (y : BitVec n) {i : Nat} (h : i < n) :
    (x ++ y).getLsbD i = y.getLsbD i := by
  rw [BitVec.getLsbD_append, if_pos h]

theorem getLsbD_append_add {m n : Nat} (x : BitVec m) (y : BitVec n) (i : Nat) :
    (x ++ y).getLsbD (n + i) = x.getLsbD i := by
  rw [BitVec.getLsbD_append, if_neg (Nat.not_lt.2 (Nat.le_add_right n i)), Nat.add_sub_cancel_left]

/-- Settles O26: each bit is looked up in the concatenation `rawPattern_eq_append`, part after part from the low end
(R104). -/
theorem everyInputBitHasItsPlaceInTheRawPattern : Obligations.EveryInputBitHasItsPlaceInTheRawPattern := by
  intro v j
  rw [rawPattern_eq_append]
  refine ⟨?_, fun hj => ?_, fun hj => ⟨?_, ?_, ?_, ?_⟩, fun hj => ?_⟩
  · rw [show 63 = 52 + (11 + 0) from rfl, getLsbD_append_add, getLsbD_append_add]
    simp
  · rw [getLsbD_append_of_lt _ _ (by omega), show 45 + j = 13 + (8 + (8 + (8 + (8 + j)))) by omega]
    iterate 5 rw [getLsbD_append_add]
    simp
    omega
  · rw [getLsbD_append_of_lt _ _ (by omega), show 37 + j = 13 + (8 + (8 + (8 + j))) by omega]
    iterate 4 rw [getLsbD_append_add]
    exact getLsbD_append_of_lt _ _ (by omega)
  · rw [getLsbD_append_of_lt _ _ (by omega), show 29 + j = 13 + (8 + (8 + j)) by omega]
    iterate 3 rw [getLsbD_append_add]
    exact getLsbD_append_of_lt _ _ (by omega)
  · rw [getLsbD_append_of_lt _ _ (by omega), show 21 + j = 13 + (8 + j) by omega]
    iterate 2 rw [getLsbD_append_add]
    exact getLsbD_append_of_lt _ _ (by omega)
  · rw [getLsbD_append_of_lt _ _ (by omega), getLsbD_append_add]
    exact getLsbD_append_of_lt _ _ (by omega)
  · rw [getLsbD_append_of_lt _ _ (by omega), getLsbD_append_of_lt _ _ (by omega)]
    exact BitVec.getLsbD_zero

end Sys2Proof.Machine
end

section
/-! The reading of patterns and of RAW64 (30_encoding.md section 2, 42_exponent_assemble.md R124 to R130). -/

namespace Sys2Proof.Machine

/-! ## Every pattern -/

/-- Settles O29: the conditions of R66 on the exponent and fraction fields select the branch of `binary64Value`, whose
value is `xval_eq` or the subnormal reading. -/
theorem binaryReadingOfEveryPattern : Obligations.BinaryReadingOfEveryPattern := by
  intro p neg
  have hmax : expField p = 2047 ↔ (expField p).toNat = 2047 := BitVec.toNat_inj.symm
  have hmin : expField p = 0 ↔ (expField p).toNat = 0 := BitVec.toNat_inj.symm
  unfold binary64Value
  refine ⟨fun hlo hhi => ?_, fun he hf hs => ?_, fun he hf hs => ?_, fun he hf => ?_, fun he hf => ?_, fun he hf => ?_⟩
  · rw [if_neg (hmax.not.2 (by omega)), if_neg (hmin.not.2 (by omega)), xval_eq]
  · rw [if_neg (hmax.not.2 (by omega)), if_pos (hmin.2 he), if_pos hf, hs]
  · rw [if_neg (hmax.not.2 (by omega)), if_pos (hmin.2 he), if_pos hf, hs]
  · rw [if_neg (hmax.not.2 (by omega)), if_pos (hmin.2 he), if_neg hf, mulPow_eq _ _ (by norm_num), signed_cast]
    rfl
  · rw [if_pos (hmax.2 he), if_pos hf]
  · rw [if_pos (hmax.2 he), if_neg hf]

theorem binary64Value_of_normal {p : Bits64} (hlo : 1 ≤ (expField p).toNat) (hhi : (expField p).toNat ≤ 2046) :
    binary64Value p = .finite (xval p) := by
  obtain ⟨hnormal, -⟩ := binaryReadingOfEveryPattern p
  rw [hnormal hlo hhi, xval_eq]

/-- The sign field is the sign of the normal-number reading. -/
theorem xval_neg_iff {p : Bits64} : xval p < 0 ↔ signField p = 1 := by
  rw [xval_eq]
  have hpos : (0 : ℚ) < (2 ^ 52 + (fracField p).toNat) * (2 : ℚ) ^ (((expField p).toNat : ℤ) - 1075) := by positivity
  split
  next h => exact iff_of_true (by linarith) h
  next h => exact iff_of_false (by linarith) h

theorem signField_eq_ite (p : Bits64) : signField p = if xval p < 0 then 1 else 0 := by
  simp only [xval_neg_iff]
  rcases (signField p).eq_zero_or_eq_one with h | h <;> rw [h] <;> rfl

theorem xval_pos_iff {p : Bits64} : 0 < xval p ↔ signField p = 0 := by
  rw [signField_eq_ite]
  rcases (xval_ne_zero p).lt_or_gt with h | h
  · rw [if_pos h]
    exact iff_of_false h.not_gt (by decide)
  · rw [if_neg h.not_gt]
    exact iff_of_true h rfl

/-! ## RAW64 -/

theorem signField_rawPattern (v : RawValue) : signField (rawPattern v) = signBit v.b0 := signField_assemble _ _ _

theorem toNat_expField_rawPattern (v : RawValue) : (expField (rawPattern v)).toNat = v.b5.toNat + 894 := by
  rw [expField_rawPattern, toNat_iexp11, exp8]

/-- The exponent byte of a request of class `DECODE.NORMAL`, as a number. -/
theorem toNat_b5_bounds {b5 : Byte} (h : b5 ≠ 0) : 1 ≤ b5.toNat ∧ b5.toNat ≤ 255 := by
  constructor <;> bv_omega

theorem expField_rawPattern_bounds {v : RawValue} (h : v.b5 ≠ 0) :
    895 ≤ (expField (rawPattern v)).toNat ∧ (expField (rawPattern v)).toNat ≤ 1149 := by
  have hb5 := toNat_b5_bounds h
  rw [toNat_expField_rawPattern]
  omega

theorem toNat_fracField_rawPattern (v : RawValue) :
    (fracField (rawPattern v)).toNat = (significand v).toNat * 2 ^ 13 := by
  rw [rawPattern, fracField_assemble, frac52_eq_append, BitVec.toNat_append]
  simp [Nat.shiftLeft_eq]

/-- R127, without the sign. -/
theorem abs_xval_rawPattern (v : RawValue) : |xval (rawPattern v)| =
    (2 ^ 39 + ((significand v).toNat : ℚ)) * (2 : ℚ) ^ ((v.b5.toNat : ℤ) - 168) := by
  have hexp : (((v.b5.toNat + 894 : ℕ) : ℤ) - 1075) = ((v.b5.toNat : ℤ) - 168) + (-13 : ℤ) := by
    push_cast
    ring
  rw [abs_xval, toNat_expField_rawPattern, toNat_fracField_rawPattern, hexp, zpow_add₀ (by norm_num)]
  push_cast
  ring

/-- Settles O30: RAW64 is normal, and thirteen of the fraction's bits are the zeros of R103 (R127). -/
theorem rawPatternReadsAsTheReal48Value : Obligations.RawPatternReadsAsTheReal48Value := by
  intro v h
  have hexp := expField_rawPattern_bounds h
  refine ⟨binary64Value_of_normal (by omega) (by omega), ?_⟩
  rw [mul_assoc, ← abs_xval_rawPattern, ← sgn_mul_abs (xval (rawPattern v)), sgn_eq_ite (xval_ne_zero _), abs_mul]
  simp only [xval_neg_iff, signField_rawPattern]
  split <;> simp

/-- Settles O31: the exponent field is the adder's sum (R124), and the sign of a normal number is its sign bit. -/
theorem rawPatternIsANormalNumber : Obligations.RawPatternIsANormalNumber := by
  intro v h
  have hexp := expField_rawPattern_bounds h
  refine ⟨hexp.1, hexp.2, rawPattern_low_bits v,
    ⟨_, binary64Value_of_normal (by omega) (by omega), xval_ne_zero _⟩, ?_, ?_⟩
  · rw [xval_neg_iff, signField_rawPattern]
  · rw [xval_pos_iff, signField_rawPattern]

/-- Settles O32: the significand `2^39 + SIG39` lies in `2^39 .. 2^40 - 1` and the exponent `EXP8 - 168` in
`-167 .. 87` (R130). -/
theorem magnitudeRangeOfTheInputs : Obligations.MagnitudeRangeOfTheInputs := by
  refine ⟨fun v h => ⟨(abs_xval_rawPattern_bounds h).1, ?_⟩, fun v h hsig => ?_, fun v h hsig => ?_,
    by decide, by decide, fun v v' h hb5 hsig => ?_⟩
  · have hsig : ((significand v).toNat : ℚ) + 1 ≤ 2 ^ 39 := by exact_mod_cast (significand v).isLt
    have hb5 := toNat_b5_bounds h
    rw [abs_xval_rawPattern]
    gcongr
    · linarith
    · norm_num
    · omega
  · rw [abs_xval_rawPattern, h, hsig, show (1 : Byte).toNat = 1 from rfl]
    norm_num
  · rw [abs_xval_rawPattern, h, hsig, show (255 : Byte).toNat = 255 from rfl]
    norm_num
  · rw [abs_xval_rawPattern, abs_xval_rawPattern, hb5, hsig]
    push_cast
    ring

end Sys2Proof.Machine
end

section
/-! RNE64 (43_precision_truncation.md section 4): how a pattern is known by its sign and its magnitude, that rounding is
monotone and to the nearest, and which numbers round to a given pattern. -/

namespace Sys2Proof.Machine

/-! ## The magnitude of a pattern in units of its last place -/

/-- The least number of the binade of `2^j` in the units of that binade. -/
theorem zpow_eq_two_pow_mul_unit (j : ℤ) : (2 : ℚ) ^ j = 2 ^ 52 * (2 : ℚ) ^ (j - 52) := by
  rw [← zpow_natCast, ← zpow_add₀ (by norm_num)]
  congr 1
  push_cast
  ring

/-- The unit in the last place of a pattern (R148). -/
def ulp (p : Bits64) : ℚ := (2 : ℚ) ^ (((expField p).toNat : ℤ) - 1075)

theorem ulp_pos (p : Bits64) : 0 < ulp p := by unfold ulp; positivity

theorem abs_xval_eq_mul_ulp (p : Bits64) : |xval p| = (2 ^ 52 + (fracField p).toNat) * ulp p := abs_xval p

theorem two_pow_mul_ulp (p : Bits64) : 2 ^ 52 * ulp p = (2 : ℚ) ^ (((expField p).toNat : ℤ) - 1023) := by
  rw [zpow_eq_two_pow_mul_unit, sub_sub]
  rfl

theorem two_pow_mul_ulp_le_abs_xval (p : Bits64) : 2 ^ 52 * ulp p ≤ |xval p| := by
  have hulp := ulp_pos p
  rw [abs_xval_eq_mul_ulp]
  gcongr
  simp

theorem abs_xval_add_ulp_le (p : Bits64) : |xval p| + ulp p ≤ 2 ^ 53 * ulp p := by
  have hfrac : ((fracField p).toNat : ℚ) + 1 ≤ 2 ^ 52 := by exact_mod_cast (fracField p).isLt
  have hulp := ulp_pos p
  rw [abs_xval_eq_mul_ulp]
  nlinarith

theorem zpow_le_abs_xval (p : Bits64) : (2 : ℚ) ^ (((expField p).toNat : ℤ) - 1023) ≤ |xval p| :=
  two_pow_mul_ulp p ▸ two_pow_mul_ulp_le_abs_xval p

theorem abs_xval_lt_zpow (p : Bits64) : |xval p| < (2 : ℚ) ^ (((expField p).toNat : ℤ) - 1022) := by
  calc |xval p| < |xval p| + ulp p := lt_add_of_pos_right _ (ulp_pos p)
    _ ≤ 2 ^ 53 * ulp p := abs_xval_add_ulp_le p
    _ = 2 * (2 ^ 52 * ulp p) := by ring
    _ = (2 : ℚ) ^ (((expField p).toNat : ℤ) - 1022) := by
      rw [two_pow_mul_ulp, show ((expField p).toNat : ℤ) - 1022 = ((expField p).toNat : ℤ) - 1023 + 1 by ring,
        zpow_add_one₀ (by norm_num), mul_comm]

theorem expField_le_of_abs_xval_le {p p' : Bits64} (h : |xval p| ≤ |xval p'|) :
    (expField p).toNat ≤ (expField p').toNat := by
  have hlt := ((zpow_le_abs_xval p).trans h).trans_lt (abs_xval_lt_zpow p')
  rw [zpow_lt_zpow_iff_right₀ (by norm_num)] at hlt
  omega

/-- A pattern is known by its sign field and the magnitude of its normal-number reading. -/
theorem eq_of_signField_of_abs_xval {p p' : Bits64} (hs : signField p = signField p') (h : |xval p| = |xval p'|) :
    p = p' := by
  have he : expField p = expField p' :=
    BitVec.eq_of_toNat_eq ((expField_le_of_abs_xval_le h.le).antisymm (expField_le_of_abs_xval_le h.ge))
  have hulp : ulp p = ulp p' := by rw [ulp, ulp, he]
  refine eq_of_fields hs he (BitVec.eq_of_toNat_eq ?_)
  rw [abs_xval_eq_mul_ulp, abs_xval_eq_mul_ulp, hulp] at h
  exact_mod_cast add_left_cancel (mul_right_cancel₀ (ulp_pos p').ne' h)

theorem sgn_mul_self (r : ℚ) : (sgn r : ℚ) * r = |r| := by
  rcases eq_or_ne r 0 with rfl | hr
  · simp
  · rw [sgn_eq_ite hr]
    split
    next h => rw [abs_of_neg h, neg_one_mul]
    next h => rw [abs_of_nonneg (not_lt.1 h), one_mul]

/-- Seen from a number `r`, any number is as far away as its product with the sign of `r` is from `|r|`. -/
theorem abs_sub_eq_abs_sgn_mul_sub {r : ℚ} (hr : r ≠ 0) (x : ℚ) : |x - r| = |(|r| - sgn r * x)| := by
  rw [← sgn_mul_self r, ← mul_sub, abs_mul, abs_sgn hr, one_mul, abs_sub_comm]

theorem sgn_xval_eq {p : Bits64} {r : ℚ} (hr : r ≠ 0) (h : signField p = if r < 0 then 1 else 0) :
    (sgn (xval p) : ℚ) = sgn r := by
  rw [sgn_eq_ite (xval_ne_zero p), sgn_eq_ite hr]
  simp only [xval_neg_iff, h]
  split <;> simp

/-! ## What RNE64 gives -/

theorem signField_rne64 (r : ℚ) : signField (rne64 r) = if r < 0 then 1 else 0 := by
  simp only [rne64, signField_assemble, Rat.num_neg]

/-- `r` lies in the binade of `2^j`, in which RNE64 rounds it to `m` units `2^(j-52)` (R147). -/
structure Rounding (r : ℚ) (j : ℤ) (m : ℕ) : Prop where
  zpow_le : (2 : ℚ) ^ j ≤ |r|
  lt_zpow : |r| < (2 : ℚ) ^ (j + 1)
  le_m : 2 ^ 52 ≤ m
  m_le : m ≤ 2 ^ 53
  near : |(|r| - m * (2 : ℚ) ^ (j - 52))| ≤ (2 : ℚ) ^ (j - 52) / 2
  even_of_tie : |(|r| - m * (2 : ℚ) ^ (j - 52))| = (2 : ℚ) ^ (j - 52) / 2 → Even m
  abs_xval_rne64 : |xval (rne64 r)| = m * (2 : ℚ) ^ (j - 52)
  unit_le_ulp : (2 : ℚ) ^ (j - 52) ≤ ulp (rne64 r)
  frac_even : Even m → (fracField (rne64 r)).toNat % 2 = 0

theorem exists_rounding {r : ℚ} (h : InRneRange r) : ∃ j m, Rounding r j m := by
  obtain ⟨hlo, hhi⟩ := h
  obtain ⟨j, m, hj, hj', -, -, hm, hm', hnear, htie, hval, -, hexp, hfrac⟩ := rne64_spec hlo hhi
  have hunit : (0 : ℚ) < (2 : ℚ) ^ (j - 52) := by positivity
  have hscale : |(|r| - m * (2 : ℚ) ^ (j - 52))| = |(m : ℚ) - |r| * (2 : ℚ) ^ (52 - j)| * (2 : ℚ) ^ (j - 52) := by
    have hcancel : (2 : ℚ) ^ (52 - j) * (2 : ℚ) ^ (j - 52) = 1 := by
      rw [← zpow_add₀ (by norm_num), sub_add_sub_cancel', sub_self, zpow_zero]
    rw [← abs_of_pos hunit, ← abs_mul, abs_of_pos hunit, sub_mul, mul_assoc, hcancel, mul_one, abs_sub_comm]
  refine ⟨j, m, hj, hj', hm, hm', ?_, fun heq => htie ?_, ?_, ?_, fun hev => ?_⟩
  · rw [hscale, div_eq_inv_mul]
    gcongr
    linarith
  · rw [hscale] at heq
    exact mul_right_cancel₀ hunit.ne' (heq.trans (by ring))
  · rw [hval, abs_mul, abs_mul, abs_of_pos hunit, Nat.abs_cast]
    split <;> simp
  · refine zpow_le_zpow_right₀ (by norm_num) ?_
    rw [hexp]
    split <;> omega
  · rw [hfrac]
    have := Nat.even_iff.1 hev
    split <;> omega

/-- RNE64 is monotone in magnitude: between binades a power of two lies between the two values, and in one binade two
numbers could only round in the wrong order from the same tie. -/
theorem abs_xval_rne64_le {r r' : ℚ} (h : InRneRange r) (h' : InRneRange r') (hle : |r| ≤ |r'|) :
    |xval (rne64 r)| ≤ |xval (rne64 r')| := by
  obtain ⟨j, m, hr⟩ := exists_rounding h
  obtain ⟨j', m', hr'⟩ := exists_rounding h'
  have hj : j < j' + 1 := (zpow_lt_zpow_iff_right₀ (by norm_num)).1 ((hr.zpow_le.trans hle).trans_lt hr'.lt_zpow)
  rw [hr.abs_xval_rne64, hr'.abs_xval_rne64]
  rcases (Int.lt_add_one_iff.1 hj).lt_or_eq with hlt | rfl
  · calc (m : ℚ) * (2 : ℚ) ^ (j - 52) ≤ 2 ^ 53 * (2 : ℚ) ^ (j - 52) := by
          gcongr
          exact_mod_cast hr.m_le
      _ = 2 * (2 : ℚ) ^ j := by rw [zpow_eq_two_pow_mul_unit j]; ring
      _ = (2 : ℚ) ^ (j + 1) := by rw [zpow_add_one₀ (by norm_num), mul_comm]
      _ ≤ (2 : ℚ) ^ j' := zpow_le_zpow_right₀ (by norm_num) hlt
      _ = 2 ^ 52 * (2 : ℚ) ^ (j' - 52) := zpow_eq_two_pow_mul_unit j'
      _ ≤ m' * (2 : ℚ) ^ (j' - 52) := by
          gcongr
          exact_mod_cast hr'.le_m
  · have hunit : (0 : ℚ) < (2 : ℚ) ^ (j - 52) := by positivity
    by_contra hgt
    have hm : m' + 1 ≤ m := Nat.succ_le_of_lt (by exact_mod_cast lt_of_mul_lt_mul_right (not_le.1 hgt) hunit.le)
    have hmul : ((m' : ℚ) + 1) * (2 : ℚ) ^ (j - 52) ≤ m * (2 : ℚ) ^ (j - 52) := by
      gcongr
      exact_mod_cast hm
    obtain ⟨hnear, -⟩ := abs_le.1 hr.near
    obtain ⟨-, hnear'⟩ := abs_le.1 hr'.near
    have htie : |r| - m * (2 : ℚ) ^ (j - 52) = -((2 : ℚ) ^ (j - 52) / 2) := by linarith
    have htie' : |r'| - m' * (2 : ℚ) ^ (j - 52) = (2 : ℚ) ^ (j - 52) / 2 := by linarith
    have heven := hr.even_of_tie (by rw [htie, abs_neg, abs_of_pos (half_pos hunit)])
    have heven' := hr'.even_of_tie (by rw [htie', abs_of_pos (half_pos hunit)])
    have hsucc : (m : ℚ) = (m' + 1 : ℕ) := by
      push_cast
      exact mul_right_cancel₀ hunit.ne' (by linarith)
    rw [Nat.cast_inj.1 hsucc, Nat.even_add_one] at heven
    exact heven heven'

/-- All numbers between two that RNE64 takes to one pattern go to that pattern. -/
theorem rne64_eq_of_between {p : Bits64} {r b r' : ℚ} (h : InRneRange r) (h' : InRneRange r') (hr : rne64 r = p)
    (hr' : rne64 r' = p) (hle : |r| ≤ |b|) (hle' : |b| ≤ |r'|) (hsign : b < 0 ↔ r < 0) : rne64 b = p := by
  have hb : InRneRange b := ⟨h.1.trans hle, hle'.trans_lt h'.2⟩
  have hlow := abs_xval_rne64_le h hb hle
  have hupp := abs_xval_rne64_le hb h' hle'
  rw [hr] at hlow
  rw [hr'] at hupp
  refine eq_of_signField_of_abs_xval ?_ (hupp.antisymm hlow)
  simp only [signField_rne64, hsign, ← hr]

theorem abs_rne64_sub_le {r : ℚ} (h : InRneRange r) :
    |(|r| - |xval (rne64 r)|)| ≤ ulp (rne64 r) / 2 ∧ |(|r| - |xval (rne64 r)|)| ≤ |r| * (2 : ℚ) ^ (-53 : ℤ) := by
  obtain ⟨j, m, hr⟩ := exists_rounding h
  have hnear := hr.near
  have hunit := hr.unit_le_ulp
  have hlow := hr.zpow_le
  rw [zpow_eq_two_pow_mul_unit j] at hlow
  rw [hr.abs_xval_rne64]
  norm_num
  constructor <;> linarith

/-- A number rounds to the normal pattern `p` if it has its sign, lies in its binade or above, and is nearer to it than
half a unit in the last place. -/
theorem rne64_eq_of_near {p : Bits64} {r : ℚ} (hlo : 1 ≤ (expField p).toNat) (hhi : (expField p).toNat ≤ 2046)
    (hsign : signField p = if r < 0 then 1 else 0) (hbinade : 2 ^ 52 * ulp p ≤ |r|)
    (hnear : |(|r| - |xval p|)| < ulp p / 2) : rne64 r = p := by
  obtain ⟨hnear1, hnear2⟩ := abs_lt.1 hnear
  have hulp := ulp_pos p
  have hlast := abs_xval_add_ulp_le p
  have hlow : (2 : ℚ) ^ (((expField p).toNat : ℤ) - 1023) ≤ |r| := two_pow_mul_ulp p ▸ hbinade
  have hupp : |r| < (2 : ℚ) ^ (((expField p).toNat : ℤ) - 1023 + 1) := by
    rw [zpow_add_one₀ (by norm_num), ← two_pow_mul_ulp]
    linarith
  have hrange : InRneRange r :=
    ⟨(zpow_le_zpow_right₀ (by norm_num) (by omega)).trans hlow,
      hupp.trans_le (zpow_le_zpow_right₀ (by norm_num) (by omega))⟩
  obtain ⟨j, m, hr⟩ := exists_rounding hrange
  have h1 := (zpow_lt_zpow_iff_right₀ (by norm_num)).1 (hr.zpow_le.trans_lt hupp)
  have h2 := (zpow_lt_zpow_iff_right₀ (by norm_num)).1 (hlow.trans_lt hr.lt_zpow)
  have hunit : (2 : ℚ) ^ (j - 52) = ulp p := by
    unfold ulp
    congr 1
    omega
  obtain ⟨hround1, hround2⟩ := abs_le.1 hr.near
  rw [hunit] at hround1 hround2
  rw [abs_xval_eq_mul_ulp] at hnear1 hnear2
  have hm : m = 2 ^ 52 + (fracField p).toNat := by
    have hle : (m : ℚ) < (2 ^ 52 + (fracField p).toNat : ℕ) + 1 := by
      push_cast
      exact lt_of_mul_lt_mul_right (by linarith) hulp.le
    have hge : ((2 ^ 52 + (fracField p).toNat : ℕ) : ℚ) < m + 1 := by
      push_cast
      exact lt_of_mul_lt_mul_right (by linarith) hulp.le
    norm_cast at hle hge
    omega
  refine eq_of_signField_of_abs_xval ((signField_rne64 r).trans hsign.symm) ?_
  rw [hr.abs_xval_rne64, hunit, hm, abs_xval_eq_mul_ulp]
  push_cast
  rfl

/-- Settles O36: the value of a pattern is in its binade and at distance 0 from it (`rne64_eq_of_near`). -/
theorem roundingGivesNormalPatternsBack : Obligations.RoundingGivesNormalPatternsBack :=
  fun p hlo hhi => rne64_eq_of_near hlo hhi (signField_eq_ite p) (two_pow_mul_ulp_le_abs_xval p)
    (by simpa using ulp_pos p)

/-! ## Rounding to nearest -/

/-- No whole multiple of the unit is nearer to `|r|` than its rounding, and another as near makes a tie. -/
theorem Rounding.near_le {r : ℚ} {j : ℤ} {m : ℕ} (h : Rounding r j m) (n : ℤ) :
    |(|r| - m * (2 : ℚ) ^ (j - 52))| ≤ |(|r| - n * (2 : ℚ) ^ (j - 52))| ∧
    (|(|r| - n * (2 : ℚ) ^ (j - 52))| = |(|r| - m * (2 : ℚ) ^ (j - 52))| → n ≠ m → Even m) := by
  have hnear := h.near
  have htie := h.even_of_tie
  by_cases hn : n = m
  · subst hn
    exact ⟨le_rfl, fun _ hne => absurd rfl hne⟩
  have hunit : (0 : ℚ) < (2 : ℚ) ^ (j - 52) := by positivity
  have hone : (1 : ℚ) ≤ |(n : ℚ) - m| := by exact_mod_cast Int.one_le_abs (sub_ne_zero.2 hn)
  have hapart : (2 : ℚ) ^ (j - 52) ≤ |n * (2 : ℚ) ^ (j - 52) - m * (2 : ℚ) ^ (j - 52)| := by
    rw [← sub_mul, abs_mul, abs_of_pos hunit]
    exact le_mul_of_one_le_left hunit.le hone
  have htriangle := abs_sub_le (n * (2 : ℚ) ^ (j - 52)) |r| (m * (2 : ℚ) ^ (j - 52))
  rw [abs_sub_comm _ |r|] at htriangle
  exact ⟨by linarith, fun heq _ => htie (by linarith)⟩

/-- A number below the binade of `r` is farther from `|r|` than its rounding: the power of two is in between. -/
theorem Rounding.near_lt {r y : ℚ} {j : ℤ} {m : ℕ} (h : Rounding r j m) (hy : y < (2 : ℚ) ^ j) :
    |(|r| - m * (2 : ℚ) ^ (j - 52))| < |(|r| - y)| := by
  have hlow := h.zpow_le
  have hpow := (h.near_le (2 ^ 52)).1
  rw [Int.cast_pow, Int.cast_ofNat, ← zpow_eq_two_pow_mul_unit, abs_of_nonneg (sub_nonneg.2 hlow)] at hpow
  rw [abs_of_pos (a := |r| - y) (by linarith)]
  linarith

theorem abs_signed (s : BitVec 1) (m : ℕ) : |signed s m| = m := by
  unfold signed
  split <;> simp

/-- A binary64 number is a whole number of less than 54 bits times a power of two. -/
theorem exists_mul_zpow_of_value {p : Bits64} {x : ℚ} (h : (binary64Value p).value? = some x) :
    ∃ n e : ℤ, x = n * (2 : ℚ) ^ e ∧ |n| < 2 ^ 53 := by
  have hfrac := (fracField p).isLt
  unfold binary64Value at h
  split at h
  · split at h <;> cases h
  split at h
  · split at h
    · exact ⟨0, 0, by simpa using (Option.some.inj h).symm, by norm_num⟩
    · refine ⟨signed (signField p) (fracField p).toNat, -1074, ?_, by rw [abs_signed]; omega⟩
      rw [← Option.some.inj h, mulPow_eq _ _ (by norm_num)]
      rfl
  · refine ⟨signed (signField p) (2 ^ 52 + (fracField p).toNat), (expField p).toNat - 1075, ?_,
      by rw [abs_signed]; omega⟩
    rw [← Option.some.inj h, xval, mulPow_eq _ _ (by norm_num)]
    rfl

/-- Settles O35: seen from `|r|`, a binary64 number is either a whole multiple of the unit of the binade of `r`
(`Rounding.near_le`) or lies below that binade (`Rounding.near_lt`); R146, R147. -/
theorem roundingIsToNearestTiesToEven : Obligations.RoundingIsToNearestTiesToEven := by
  intro r x p hlo hhi hx
  obtain ⟨j, m, hr⟩ := exists_rounding ⟨hlo, hhi⟩
  obtain ⟨n, e, hxe, hn⟩ := exists_mul_zpow_of_value hx
  have hr0 : r ≠ 0 := abs_pos.1 (lt_of_lt_of_le (by positivity) hlo)
  have hn' : |(n : ℚ)| < 2 ^ 53 := by exact_mod_cast hn
  have hval : (sgn r : ℚ) * xval (rne64 r) = m * (2 : ℚ) ^ (j - 52) := by
    rw [← sgn_xval_eq hr0 (signField_rne64 r), sgn_mul_self, hr.abs_xval_rne64]
  rw [abs_sub_eq_abs_sgn_mul_sub hr0, abs_sub_eq_abs_sgn_mul_sub hr0, hval]
  rcases le_or_gt (j - 52) e with he | he
  · obtain ⟨k, hk⟩ := Int.le.dest he
    have hmul : (sgn r : ℚ) * x = (sgn r * n * 2 ^ k : ℤ) * (2 : ℚ) ^ (j - 52) := by
      rw [hxe, ← hk, zpow_add₀ (by norm_num), zpow_natCast]
      push_cast
      ring
    obtain ⟨hle, htie⟩ := hr.near_le (sgn r * n * 2 ^ k)
    rw [← hmul] at hle htie
    refine ⟨hle, fun heq hne => hr.frac_even (htie heq fun hm => hne ?_)⟩
    refine mul_left_cancel₀ (abs_pos.1 ((abs_sgn hr0).symm ▸ one_pos)) (hmul.trans ?_)
    rw [hm, hval]
    rfl
  · have hlow : (sgn r : ℚ) * x < (2 : ℚ) ^ j :=
      calc (sgn r : ℚ) * x ≤ |(sgn r : ℚ) * x| := le_abs_self _
        _ = |(n : ℚ)| * (2 : ℚ) ^ e := by
          rw [abs_mul, abs_sgn hr0, one_mul, hxe, abs_mul, abs_of_pos (a := (2 : ℚ) ^ e) (by positivity)]
        _ < 2 ^ 53 * (2 : ℚ) ^ e := by gcongr
        _ ≤ 2 ^ 53 * (2 : ℚ) ^ (j - 53) := by
          gcongr
          · norm_num
          · omega
        _ = (2 : ℚ) ^ j := by
          rw [← zpow_natCast, ← zpow_add₀ (by norm_num)]
          congr 1
          push_cast
          ring
    have hlt := hr.near_lt hlow
    exact ⟨hlt.le, fun heq => absurd heq hlt.ne'⟩

end Sys2Proof.Machine
end

section
/-! The bounds of trunc11 (43_precision_truncation.md R145), that it is monotone, and the sign through the whole unit
(R149). -/

namespace Sys2Proof.Machine

/-! ## TVAL against its argument -/

/-- A power of ten on the grid `n` places below it. -/
theorem zpow_eq_pow_mul_grid (k : ℤ) (n : ℕ) : (10 : ℚ) ^ k = (10 ^ n : ℕ) * (10 : ℚ) ^ (k - n) := by
  rw [Nat.cast_pow, ← div_eq_iff (by positivity)]
  exact zpow_div_grid k n

theorem abs_trunc11_le (r : ℚ) : |trunc11 r| ≤ |r| := by
  rcases eq_or_ne r 0 with rfl | hr
  · simp [trunc11_eq]
  · rw [abs_trunc11 hr]
    exact floor_div_mul_le (abs_nonneg r) (by positivity)

theorem abs_lt_abs_trunc11_add {r : ℚ} (hr : r ≠ 0) : |r| < |trunc11 r| + (10 : ℚ) ^ (dexp |r| - 10) := by
  rw [abs_trunc11 hr]
  exact lt_floor_div_mul_add (by positivity)

theorem zpow_dexp_le_abs_trunc11 {r : ℚ} (hr : r ≠ 0) : (10 : ℚ) ^ dexp |r| ≤ |trunc11 r| := by
  have hfloor : 10 ^ 10 ≤ ⌊|r| / (10 : ℚ) ^ (dexp |r| - (10 : ℕ))⌋₊ :=
    pow_le_floor_div_grid 10 (zpow_dexp_le (abs_pos.2 hr))
  rw [abs_trunc11 hr, zpow_eq_pow_mul_grid _ 10]
  exact mul_le_mul_of_nonneg_right (Nat.cast_le.2 hfloor) (by positivity)

theorem trunc11_eq_sgn_mul_abs {r : ℚ} (hr : r ≠ 0) : trunc11 r = sgn r * |trunc11 r| := by
  rw [abs_trunc11 hr, trunc11_eq, magnitude_eq_abs, mul_assoc]

theorem trunc11_ne_zero {r : ℚ} (hr : r ≠ 0) : trunc11 r ≠ 0 :=
  abs_pos.1 (lt_of_lt_of_le (by positivity) (zpow_dexp_le_abs_trunc11 hr))

theorem trunc11_neg_iff {r : ℚ} (hr : r ≠ 0) : trunc11 r < 0 ↔ r < 0 := by
  have hpos : 0 < |trunc11 r| := abs_pos.2 (trunc11_ne_zero hr)
  rw [trunc11_eq_sgn_mul_abs hr, sgn_eq_ite hr]
  split
  next h => exact iff_of_true (by linarith) h
  next h => exact iff_of_false (by linarith) h

/-- trunc11 is monotone in magnitude: between decades a power of ten lies between the two values, and in one decade the
grid is the same. -/
theorem abs_trunc11_mono {r r' : ℚ} (hr : r ≠ 0) (hle : |r| ≤ |r'|) : |trunc11 r| ≤ |trunc11 r'| := by
  have hr' : r' ≠ 0 := abs_pos.1 ((abs_pos.2 hr).trans_le hle)
  rcases (ilog_mono (b := 10) (abs_pos.2 hr) hle).lt_or_eq with hlt | heq
  · calc |trunc11 r| ≤ |r| := abs_trunc11_le r
      _ ≤ (10 : ℚ) ^ (dexp |r| + 1) := (lt_zpow_dexp_add_one (abs_pos.2 hr)).le
      _ ≤ (10 : ℚ) ^ dexp |r'| := zpow_le_zpow_right₀ (by norm_num) hlt
      _ ≤ |trunc11 r'| := zpow_dexp_le_abs_trunc11 hr'
  · have hdexp : dexp |r| = dexp |r'| := heq
    rw [abs_trunc11 hr, abs_trunc11 hr', hdexp]
    gcongr

/-- Settles O34: both are monotone in magnitude (`abs_trunc11_mono`, `abs_xval_rne64_le`) and keep the positive sign. -/
theorem truncationAndRoundingAreMonotone : Obligations.TruncationAndRoundingAreMonotone := by
  refine ⟨fun r r' hr hle => ?_, fun r r' hlo hle hhi => ?_⟩
  · have hr' : 0 < r' := hr.trans_le hle
    have habs {a : ℚ} (ha : 0 < a) : |trunc11 a| = trunc11 a :=
      abs_of_nonneg (not_lt.1 ((trunc11_neg_iff ha.ne').not.2 ha.not_gt))
    rw [← habs hr, ← habs hr']
    exact abs_trunc11_mono hr.ne' (by rwa [abs_of_pos hr, abs_of_pos hr'])
  · have hr : 0 < r := lt_of_lt_of_le (by positivity) hlo
    have hr' : 0 < r' := hr.trans_le hle
    have habs {a : ℚ} (ha : 0 < a) : |xval (rne64 a)| = xval (rne64 a) :=
      abs_of_pos (xval_pos_iff.2 ((signField_rne64 a).trans (if_neg ha.not_gt)))
    rw [← habs hr, ← habs hr']
    refine abs_xval_rne64_le ⟨?_, ?_⟩ ⟨?_, ?_⟩ ?_
    all_goals simp only [abs_of_pos hr, abs_of_pos hr']
    · exact hlo
    · exact hle.trans_lt hhi
    · exact hlo.trans hle
    · exact hhi
    · exact hle

theorem trunc11_eq_self {r : ℚ} (h : HasDigits 11 r) : trunc11 r = r := by
  rcases eq_or_ne r 0 with rfl | hr
  · simp [trunc11_eq]
  · exact trunc11_eq_self_of_hasDigits hr h

/-! ## The sign bit of a pattern -/

/-- The pattern with its sign bit flipped. -/
def flipSign (p : Bits64) : Bits64 := p ^^^ 0x8000000000000000

theorem flipSign_assemble (s : BitVec 1) (e : BitVec 11) (f : BitVec 52) :
    flipSign (assemble s e f) = assemble (s ^^^ 1) e f := by
  rw [flipSign, assemble_eq_append, show (0x8000000000000000 : Bits64) = (1 : BitVec 1) ++ 0#11 ++ 0#52 from rfl,
    BitVec.xor_append, BitVec.xor_append, BitVec.xor_zero, BitVec.xor_zero, assemble_eq_append]

theorem flipSign_eq_assemble (p : Bits64) : flipSign p = assemble (signField p ^^^ 1) (expField p) (fracField p) := by
  rw [← flipSign_assemble, assemble_fields]

theorem flipSign_flipSign (p : Bits64) : flipSign (flipSign p) = p := by
  rw [flipSign, flipSign, BitVec.xor_assoc, BitVec.xor_self, BitVec.xor_zero]

theorem xval_flipSign (p : Bits64) : xval (flipSign p) = -xval p := by
  have hsign : (if signField p ^^^ 1 = 1 then -1 else 1 : ℚ) = -(if signField p = 1 then -1 else 1) := by
    rcases (signField p).eq_zero_or_eq_one with h | h <;> simp [h]
  rw [flipSign_eq_assemble, xval_eq, xval_eq, signField_assemble, expField_assemble, fracField_assemble, hsign]
  ring

/-- R149 for RNE64, which reads the sign of its argument only to write the sign bit. -/
theorem rne64_neg {r : ℚ} (hr : r ≠ 0) : rne64 (-r) = flipSign (rne64 r) := by
  have hmag : magnitude (-r) = magnitude r := by rw [magnitude_eq_abs, magnitude_eq_abs, abs_neg]
  have hsign : (if -r < 0 then 1 else 0 : BitVec 1) = (if r < 0 then 1 else 0) ^^^ 1 := by
    rcases hr.lt_or_gt with h | h
    · rw [if_neg (by linarith), if_pos h]
      rfl
    · rw [if_pos (by linarith), if_neg h.not_gt]
      rfl
  simp only [rne64, hmag, flipSign_assemble, Rat.num_neg, ← hsign]

theorem trunc11_neg (r : ℚ) : trunc11 (-r) = -trunc11 r := by
  rw [trunc11_eq, trunc11_eq, magnitude_eq_abs, magnitude_eq_abs, abs_neg, sgn_neg]
  push_cast
  ring

end Sys2Proof.Machine
end

section
/-! SHORTEST (43_precision_truncation.md R143): the decimals of one length next to a pattern, the search over the lengths,
and that what it finds is the shortest decimal of the definition. -/

namespace Sys2Proof.Machine

/-! ## The two decimals next to a pattern -/

/-- The unit of the last of the `n + 1` leading digits of XVAL. -/
def gridUnit (raw : Bits64) (n : ℕ) : ℚ := (10 : ℚ) ^ (dexp |xval raw| - n)

/-- The `n + 1` leading digits of XVAL. -/
def gridDigits (raw : Bits64) (n : ℕ) : ℕ := ⌊|xval raw| / gridUnit raw n⌋₊

/-- The number with the sign of XVAL that has the digits `m` on that grid. -/
def gridPoint (raw : Bits64) (n m : ℕ) : ℚ := sgn (xval raw) * m * gridUnit raw n

theorem gridUnit_pos (raw : Bits64) (n : ℕ) : 0 < gridUnit raw n := by unfold gridUnit; positivity

theorem abs_gridPoint (raw : Bits64) (n m : ℕ) : |gridPoint raw n m| = m * gridUnit raw n := by
  rw [gridPoint, mul_assoc, abs_mul, abs_sgn (xval_ne_zero raw), one_mul,
    abs_of_nonneg (mul_nonneg (Nat.cast_nonneg m) (gridUnit_pos raw n).le)]

theorem zpow_dexp_eq_pow_mul_gridUnit (raw : Bits64) (n : ℕ) :
    (10 : ℚ) ^ dexp |xval raw| = (10 ^ n : ℕ) * gridUnit raw n := zpow_eq_pow_mul_grid _ n

theorem pow_le_gridDigits (raw : Bits64) (n : ℕ) : 10 ^ n ≤ gridDigits raw n :=
  pow_le_floor_div_grid n (zpow_dexp_le (abs_pos.2 (xval_ne_zero raw)))

theorem gridDigits_lt_pow (raw : Bits64) (n : ℕ) : gridDigits raw n < 10 ^ (n + 1) :=
  floor_div_grid_lt_pow n (abs_nonneg _) (lt_zpow_dexp_add_one (abs_pos.2 (xval_ne_zero raw)))

theorem gridDigits_mul_le (raw : Bits64) (n : ℕ) : gridDigits raw n * gridUnit raw n ≤ |xval raw| :=
  floor_div_mul_le (abs_nonneg _) (gridUnit_pos raw n)

theorem lt_gridDigits_succ_mul (raw : Bits64) (n : ℕ) : |xval raw| < (gridDigits raw n + 1 : ℕ) * gridUnit raw n := by
  rw [Nat.cast_succ, add_one_mul]
  exact lt_floor_div_mul_add (gridUnit_pos raw n)

/-- Twice the remainder against the denominator says in which half of its unit a number lies. -/
theorem two_mul_fracNum_lt_den_iff {a : ℚ} (h : 0 ≤ a) : 2 * fracNum a < a.den ↔ a - floorNat a < 1 / 2 := by
  have hd : (0 : ℚ) < a.den := by exact_mod_cast a.den_pos
  rw [← fracNum_div_den h, div_lt_div_iff₀ hd two_pos, one_mul, mul_comm 2]
  exact_mod_cast Iff.rfl

theorem two_mul_fracNum_eq_den_iff {a : ℚ} (h : 0 ≤ a) : 2 * fracNum a = a.den ↔ a - floorNat a = 1 / 2 := by
  have hd : (a.den : ℚ) ≠ 0 := by exact_mod_cast a.den_nz
  rw [← fracNum_div_den h, div_eq_div_iff hd two_ne_zero, one_mul, mul_comm 2]
  exact_mod_cast Iff.rfl

/-- The lower of the two decimals is the one to take when both convert back: it is nearer to XVAL, or as near with even
digits. -/
def LowerIsNearer (raw : Bits64) (n : ℕ) : Prop :=
  |xval raw| - gridDigits raw n * gridUnit raw n < gridUnit raw n / 2 ∨
    |xval raw| - gridDigits raw n * gridUnit raw n = gridUnit raw n / 2 ∧ gridDigits raw n % 2 = 0

open Classical in
/-- The search of one length in the field of rationals. -/
theorem shortestOfLength_succ (n : ℕ) (raw : Bits64) : shortestOfLength (n + 1) raw =
    if rne64 (gridPoint raw n (gridDigits raw n)) = raw ∧
        (rne64 (gridPoint raw n (gridDigits raw n + 1)) ≠ raw ∨ LowerIsNearer raw n) then
      some (gridPoint raw n (gridDigits raw n))
    else if rne64 (gridPoint raw n (gridDigits raw n + 1)) = raw then some (gridPoint raw n (gridDigits raw n + 1))
    else none := by
  have hexp : dexp |xval raw| - ((n + 1 : ℕ) : ℤ) + 1 = dexp |xval raw| - n := by
    push_cast
    ring
  have hquot : mulPow |xval raw| 10 (-(dexp |xval raw| - n)) = |xval raw| / gridUnit raw n := by
    rw [mulPow_eq _ _ (by norm_num), zpow_neg, ← div_eq_mul_inv]
    rfl
  have hnonneg : 0 ≤ |xval raw| / gridUnit raw n := div_nonneg (abs_nonneg _) (gridUnit_pos raw n).le
  have hpoint (m : ℕ) : mulPow (sgn (xval raw) * (m : ℤ) : ℤ) 10 (dexp |xval raw| - n) = gridPoint raw n m := by
    rw [mulPow_eq _ _ (by norm_num), gridPoint, gridUnit]
    push_cast
    rfl
  have hscale : |xval raw| - gridDigits raw n * gridUnit raw n =
      (|xval raw| / gridUnit raw n - gridDigits raw n) * gridUnit raw n := by
    rw [sub_mul, div_mul_cancel₀ _ (gridUnit_pos raw n).ne']
  have hhalf : gridUnit raw n / 2 = 1 / 2 * gridUnit raw n := by ring
  have hfloor : floorNat (|xval raw| / gridUnit raw n) = gridDigits raw n := floorNat_eq_floor hnonneg
  unfold shortestOfLength LowerIsNearer
  simp only [hscale, hhalf, mul_lt_mul_iff_left₀ (gridUnit_pos raw n), mul_left_inj' (gridUnit_pos raw n).ne',
    magnitude_eq_abs, hexp, hquot, hpoint, two_mul_fracNum_lt_den_iff hnonneg,
    two_mul_fracNum_eq_den_iff hnonneg, hfloor, Bool.and_eq_true, Bool.or_eq_true, Bool.not_eq_true', beq_iff_eq,
    beq_eq_false_iff_ne, decide_eq_true_iff]

/-! ## The elements of C_p -/

theorem InC.abs_eq {raw : Bits64} {p d : ℕ} {q : ℤ} {r : ℚ} (h : InC raw p d q r) : |r| = d * (10 : ℚ) ^ q := by
  obtain ⟨-, -, -, hr, -⟩ := h
  rw [hr, mul_assoc, abs_mul, abs_sgn (xval_ne_zero raw), one_mul, abs_of_nonneg (by positivity)]

theorem InC.eq_sgn_mul_abs {raw : Bits64} {p d : ℕ} {q : ℤ} {r : ℚ} (h : InC raw p d q r) :
    r = sgn (xval raw) * |r| := by
  obtain ⟨-, -, -, hr, -⟩ := id h
  rw [h.abs_eq, ← mul_assoc, ← hr]

theorem InC.inRneRange {raw : Bits64} {p d : ℕ} {q : ℤ} {r : ℚ} (h : InC raw p d q r) : InRneRange r := by
  obtain ⟨-, -, -, -, hrange, -⟩ := h
  exact hrange

theorem InC.rne64_eq {raw : Bits64} {p d : ℕ} {q : ℤ} {r : ℚ} (h : InC raw p d q r) : rne64 r = raw := by
  obtain ⟨-, -, -, -, -, hback⟩ := h
  exact hback

theorem InC.digits_lt {raw : Bits64} {p d : ℕ} {q : ℤ} {r : ℚ} (h : InC raw p d q r) : d < 10 ^ p := by
  obtain ⟨-, -, hd, -⟩ := h
  exact hd

theorem InC.length_ne_zero {raw : Bits64} {p d : ℕ} {q : ℤ} {r : ℚ} (h : InC raw p d q r) : p ≠ 0 := by
  obtain ⟨hp, -⟩ := h
  omega

/-- An element of `C_p` has at most `n` significant digits for every `n` from `p` on. -/
theorem InC.hasDigits {raw : Bits64} {p d n : ℕ} {q : ℤ} {r : ℚ} (h : InC raw p d q r) (hp : p ≤ n) : HasDigits n r :=
  ⟨d, q, h.digits_lt.trans_le (Nat.pow_le_pow_right (by norm_num) hp), h.abs_eq⟩

/-- An element of `C_p` is as far from XVAL as their magnitudes are apart. -/
theorem InC.abs_sub_xval {raw : Bits64} {p d : ℕ} {q : ℤ} {r : ℚ} (h : InC raw p d q r) :
    |r - xval raw| = |(|xval raw| - |r|)| := by
  have hsgn := abs_mul_abs_self (sgn (xval raw) : ℚ)
  rw [abs_sgn (xval_ne_zero raw), one_mul] at hsgn
  rw [abs_sub_eq_abs_sgn_mul_sub (xval_ne_zero raw)]
  conv_lhs => rw [h.eq_sgn_mul_abs, ← mul_assoc, ← hsgn, one_mul]

/-- No decimal of `n + 1` digits lies strictly between the two next to XVAL. -/
theorem le_or_le_of_digits {n d : ℕ} (raw : Bits64) (q : ℤ) (hd : d < 10 ^ (n + 1)) :
    (d : ℚ) * (10 : ℚ) ^ q ≤ gridDigits raw n * gridUnit raw n ∨
      ((gridDigits raw n + 1 : ℕ) : ℚ) * gridUnit raw n ≤ d * (10 : ℚ) ^ q := by
  have hunit := (gridUnit_pos raw n).le
  have habs : |(d : ℚ) * (10 : ℚ) ^ q| = d * (10 : ℚ) ^ q := abs_of_nonneg (by positivity)
  by_cases hk : (10 : ℚ) ^ dexp |xval raw| ≤ d * (10 : ℚ) ^ q
  · have hgrid := floor_div_grid_mul_of_hasDigits n (habs.symm ▸ hk) ⟨d, q, hd, habs⟩
    rw [habs] at hgrid
    rw [← hgrid]
    rcases Nat.lt_or_ge (gridDigits raw n) ⌊(d : ℚ) * (10 : ℚ) ^ q / (10 : ℚ) ^ (dexp |xval raw| - n)⌋₊ with h | h
    · exact .inr (mul_le_mul_of_nonneg_right (Nat.cast_le.2 h) hunit)
    · exact .inl (mul_le_mul_of_nonneg_right (Nat.cast_le.2 h) hunit)
  · refine .inl ((not_le.1 hk).le.trans ?_)
    rw [zpow_dexp_eq_pow_mul_gridUnit raw n]
    exact mul_le_mul_of_nonneg_right (Nat.cast_le.2 (pow_le_gridDigits raw n)) hunit

/-- The patterns that RAW64 and VALUE can be (R124, R148): what is proved of SHORTEST is proved of these. -/
def MidRange (p : Bits64) : Prop := 894 ≤ (expField p).toNat ∧ (expField p).toNat ≤ 1149

theorem MidRange.rne64_xval {p : Bits64} (h : MidRange p) : rne64 (xval p) = p :=
  roundingGivesNormalPatternsBack p (by have := h.1; omega) (by have := h.2; omega)

theorem MidRange.abs_xval_bounds {p : Bits64} (h : MidRange p) :
    (2 : ℚ) ^ (-129 : ℤ) ≤ |xval p| ∧ |xval p| < (2 : ℚ) ^ (127 : ℤ) := by
  obtain ⟨hlo, hhi⟩ := h
  exact ⟨(zpow_le_zpow_right₀ (by norm_num) (by omega)).trans (zpow_le_abs_xval p),
    (abs_xval_lt_zpow p).trans_le (zpow_le_zpow_right₀ (by norm_num) (by omega))⟩

/-- Between the power of ten below XVAL and the double of XVAL, RNE64 is in its range. -/
theorem MidRange.inRneRange {p : Bits64} (h : MidRange p) {a : ℚ} (hlo : (10 : ℚ) ^ dexp |xval p| ≤ |a|)
    (hhi : |a| ≤ |xval p| + (10 : ℚ) ^ dexp |xval p|) : InRneRange a := by
  obtain ⟨hxlo, hxhi⟩ := h.abs_xval_bounds
  have hpos : 0 < |xval p| := abs_pos.2 (xval_ne_zero p)
  have hten := lt_zpow_dexp_add_one hpos
  have hten' := zpow_dexp_le hpos
  rw [zpow_add_one₀ (by norm_num)] at hten
  constructor
  · calc (2 : ℚ) ^ (-1022 : ℤ) ≤ (2 : ℚ) ^ (-133 : ℤ) := zpow_le_zpow_right₀ (by norm_num) (by norm_num)
      _ ≤ (2 : ℚ) ^ (-129 : ℤ) / 10 := by norm_num
      _ ≤ |xval p| / 10 := by gcongr
      _ ≤ |a| := by linarith
  · calc |a| < 2 * (2 : ℚ) ^ (127 : ℤ) := by linarith
      _ = (2 : ℚ) ^ (128 : ℤ) := by norm_num
      _ ≤ (2 : ℚ) ^ (1024 : ℤ) := zpow_le_zpow_right₀ (by norm_num) (by norm_num)

theorem gridUnit_le_zpow_dexp (raw : Bits64) (n : ℕ) : gridUnit raw n ≤ (10 : ℚ) ^ dexp |xval raw| :=
  zpow_le_zpow_right₀ (by norm_num) (by omega)

theorem MidRange.inRneRange_gridPoint {raw : Bits64} (h : MidRange raw) {n m : ℕ} (hm : gridDigits raw n ≤ m)
    (hm' : m ≤ gridDigits raw n + 1) : InRneRange (gridPoint raw n m) := by
  have hunit := gridUnit_pos raw n
  refine h.inRneRange ?_ ?_
  · rw [abs_gridPoint, zpow_dexp_eq_pow_mul_gridUnit raw n]
    exact mul_le_mul_of_nonneg_right (Nat.cast_le.2 ((pow_le_gridDigits raw n).trans hm)) hunit.le
  · rw [abs_gridPoint]
    calc (m : ℚ) * gridUnit raw n ≤ (gridDigits raw n + 1 : ℕ) * gridUnit raw n := by gcongr
      _ = gridDigits raw n * gridUnit raw n + gridUnit raw n := by rw [Nat.cast_succ, add_one_mul]
      _ ≤ _ := add_le_add (gridDigits_mul_le raw n) (gridUnit_le_zpow_dexp raw n)

theorem MidRange.inRneRange_xval {raw : Bits64} (h : MidRange raw) : InRneRange (xval raw) :=
  h.inRneRange (zpow_dexp_le (abs_pos.2 (xval_ne_zero raw))) (le_add_of_nonneg_right (by positivity))

/-- What rounds to a pattern has its sign. -/
theorem neg_iff_of_rne64_eq {raw : Bits64} {r : ℚ} (h : rne64 r = raw) : r < 0 ↔ xval raw < 0 := by
  rw [xval_neg_iff, ← h, signField_rne64]
  split
  next hneg => exact iff_of_true hneg rfl
  next hneg => exact iff_of_false hneg (by decide)

theorem gridPoint_neg_iff {raw : Bits64} {n m : ℕ} (hm : 0 < m) : gridPoint raw n m < 0 ↔ xval raw < 0 := by
  have hpos : 0 < (m : ℚ) * gridUnit raw n := mul_pos (Nat.cast_pos.2 hm) (gridUnit_pos raw n)
  rw [gridPoint, mul_assoc, sgn_eq_ite (xval_ne_zero raw)]
  split
  next h => exact iff_of_true (by linarith) h
  next h => exact iff_of_false (by linarith) h

theorem gridDigits_pos (raw : Bits64) (n : ℕ) : 0 < gridDigits raw n :=
  (pow_pos (by norm_num) n).trans_le (pow_le_gridDigits raw n)

/-- If a number at or below the lower decimal converts back, so does the lower decimal. -/
theorem rne64_lower_eq {raw : Bits64} (h : MidRange raw) {n : ℕ} {r : ℚ} (hrange : InRneRange r) (hr : rne64 r = raw)
    (hle : |r| ≤ gridDigits raw n * gridUnit raw n) : rne64 (gridPoint raw n (gridDigits raw n)) = raw := by
  rw [← abs_gridPoint] at hle
  refine rne64_eq_of_between hrange h.inRneRange_xval hr h.rne64_xval hle ?_ ?_
  · rw [abs_gridPoint]
    exact gridDigits_mul_le raw n
  · rw [gridPoint_neg_iff (gridDigits_pos raw n), neg_iff_of_rne64_eq hr]

/-- If a number at or above the upper decimal converts back, so does the upper decimal. -/
theorem rne64_upper_eq {raw : Bits64} (h : MidRange raw) {n : ℕ} {r : ℚ} (hrange : InRneRange r) (hr : rne64 r = raw)
    (hle : (gridDigits raw n + 1 : ℕ) * gridUnit raw n ≤ |r|) :
    rne64 (gridPoint raw n (gridDigits raw n + 1)) = raw := by
  rw [← abs_gridPoint] at hle
  refine rne64_eq_of_between h.inRneRange_xval hrange h.rne64_xval hr ?_ hle (gridPoint_neg_iff (Nat.succ_pos _))
  rw [abs_gridPoint]
  exact (lt_gridDigits_succ_mul raw n).le

/-- A point of the grid that converts back is in `C_p`; its digits there are its digits on the grid, or those of a power
of ten. -/
theorem inC_gridPoint {raw : Bits64} {n m : ℕ} (hm : 10 ^ n ≤ m) (hm' : m ≤ 10 ^ (n + 1))
    (hrange : InRneRange (gridPoint raw n m)) (hback : rne64 (gridPoint raw n m) = raw) :
    ∃ d q, InC raw (n + 1) d q (gridPoint raw n m) ∧ (d = m ∨ m = 10 ^ (n + 1) ∧ d = 10 ^ n) := by
  rcases hm'.lt_or_eq with hlt | rfl
  · exact ⟨m, dexp |xval raw| - n, ⟨Nat.succ_pos n, hm, hlt, rfl, hrange, hback⟩, .inl rfl⟩
  · refine ⟨10 ^ n, dexp |xval raw| - n + 1, ⟨Nat.succ_pos n, le_rfl, Nat.pow_lt_pow_right (by norm_num) (by omega), ?_,
      hrange, hback⟩, .inr ⟨rfl, rfl⟩⟩
    rw [gridPoint, gridUnit, zpow_add_one₀ (by norm_num)]
    push_cast
    ring

/-! ## The search of one length -/

/-- `s` is in `C_p`, nearest to XVAL there, and has even digits if another is as near. -/
def NearestInC (raw : Bits64) (p : ℕ) (s : ℚ) : Prop :=
  ∃ d q, InC raw p d q s ∧ ∀ d' q' r', InC raw p d' q' r' →
    |s - xval raw| ≤ |r' - xval raw| ∧ (|r' - xval raw| = |s - xval raw| → r' ≠ s → Even d)

/-- Two elements of `C_p` of the same magnitude are one. -/
theorem InC.eq_of_abs_eq {raw : Bits64} {p d d' : ℕ} {q q' : ℤ} {r r' : ℚ} (h : InC raw p d q r)
    (h' : InC raw p d' q' r') (heq : |r| = |r'|) : r = r' := by
  rw [h.eq_sgn_mul_abs, h'.eq_sgn_mul_abs, heq]

/-- A unit of the grid whose two points both convert back is no larger than the unit in the last place. -/
theorem gridUnit_le_ulp {raw : Bits64} (h : MidRange raw) {n : ℕ}
    (hlower : rne64 (gridPoint raw n (gridDigits raw n)) = raw)
    (hupper : rne64 (gridPoint raw n (gridDigits raw n + 1)) = raw) : gridUnit raw n ≤ ulp raw := by
  have hlo := (abs_rne64_sub_le (h.inRneRange_gridPoint (n := n) le_rfl (Nat.le_succ _))).1
  have hhi := (abs_rne64_sub_le (h.inRneRange_gridPoint (n := n) (Nat.le_succ _) le_rfl)).1
  rw [hlower, abs_gridPoint] at hlo
  rw [hupper, abs_gridPoint, Nat.cast_succ, add_one_mul] at hhi
  have hlo' := (abs_le.1 hlo).1
  have hhi' := (abs_le.1 hhi).2
  linarith

/-- The two one-digit decimals next to a pattern cannot both convert back to it: they are too far apart. -/
theorem ne_zero_of_both_back {raw : Bits64} (h : MidRange raw) {n : ℕ}
    (hlower : rne64 (gridPoint raw n (gridDigits raw n)) = raw)
    (hupper : rne64 (gridPoint raw n (gridDigits raw n + 1)) = raw) : n ≠ 0 := by
  rintro rfl
  have hunit := gridUnit_le_ulp h hlower hupper
  have hten := lt_zpow_dexp_add_one (abs_pos.2 (xval_ne_zero raw))
  rw [zpow_add_one₀ (by norm_num), zpow_dexp_eq_pow_mul_gridUnit raw 0, pow_zero, Nat.cast_one, one_mul] at hten
  have hulp := ulp_pos raw
  have hlow := two_pow_mul_ulp_le_abs_xval raw
  linarith

/-- An element of `C_p` lies at or below the lower decimal, which then converts back, or at or above the upper one, which
then does. -/
theorem InC.lower_or_upper {raw : Bits64} (h : MidRange raw) {n d : ℕ} {q : ℤ} {r : ℚ} (hr : InC raw (n + 1) d q r) :
    |r| ≤ gridDigits raw n * gridUnit raw n ∧ rne64 (gridPoint raw n (gridDigits raw n)) = raw ∨
    gridDigits raw n * gridUnit raw n + gridUnit raw n ≤ |r| ∧ rne64 (gridPoint raw n (gridDigits raw n + 1)) = raw := by
  rcases le_or_le_of_digits raw q hr.digits_lt with hle | hle
  · rw [← hr.abs_eq] at hle
    exact .inl ⟨hle, rne64_lower_eq h hr.inRneRange hr.rne64_eq hle⟩
  · rw [← hr.abs_eq] at hle
    have hback := rne64_upper_eq h hr.inRneRange hr.rne64_eq hle
    rw [Nat.cast_succ, add_one_mul] at hle
    exact .inr ⟨hle, hback⟩

/-- The lower decimal, where it converts back and is the better one if the upper does too, is nearest in `C_p`. -/
theorem nearestInC_lower {raw : Bits64} (h : MidRange raw) {n : ℕ}
    (hlower : rne64 (gridPoint raw n (gridDigits raw n)) = raw)
    (hbest : rne64 (gridPoint raw n (gridDigits raw n + 1)) = raw → LowerIsNearer raw n) :
    NearestInC raw (n + 1) (gridPoint raw n (gridDigits raw n)) := by
  have hdigits := gridDigits_lt_pow raw n
  have hle := gridDigits_mul_le raw n
  obtain ⟨d, q, hinC, hd⟩ := inC_gridPoint (pow_le_gridDigits raw n) hdigits.le
    (h.inRneRange_gridPoint le_rfl (Nat.le_succ _)) hlower
  obtain rfl : d = gridDigits raw n := hd.resolve_right fun hpow => hdigits.ne hpow.1
  refine ⟨_, q, hinC, fun d' q' r' hr' => ?_⟩
  rw [hinC.abs_sub_xval, hr'.abs_sub_xval, abs_gridPoint, abs_of_nonneg (sub_nonneg.2 hle)]
  rcases hr'.lower_or_upper h with ⟨hlow, -⟩ | ⟨hupp, hupper⟩
  · rw [abs_of_nonneg (sub_nonneg.2 (hlow.trans hle))]
    exact ⟨by linarith, fun heq hne => absurd (hr'.eq_of_abs_eq hinC (by rw [abs_gridPoint]; linarith)) hne⟩
  · have hlt := lt_gridDigits_succ_mul raw n
    rw [Nat.cast_succ, add_one_mul] at hlt
    rw [abs_sub_comm, abs_of_pos (a := |r'| - |xval raw|) (by linarith)]
    rcases hbest hupper with hnear | ⟨htie, heven⟩
    · exact ⟨by linarith, fun heq => by linarith⟩
    · exact ⟨by linarith, fun _ _ => Nat.even_iff.2 heven⟩

/-- The upper decimal, where it converts back and is the better one if the lower does too, is nearest in `C_p`. -/
theorem nearestInC_upper {raw : Bits64} (h : MidRange raw) {n : ℕ}
    (hupper : rne64 (gridPoint raw n (gridDigits raw n + 1)) = raw)
    (hbest : rne64 (gridPoint raw n (gridDigits raw n)) = raw → ¬ LowerIsNearer raw n) :
    NearestInC raw (n + 1) (gridPoint raw n (gridDigits raw n + 1)) := by
  have hlt := lt_gridDigits_succ_mul raw n
  obtain ⟨d, q, hinC, hd⟩ := inC_gridPoint ((pow_le_gridDigits raw n).trans (Nat.le_succ _)) (gridDigits_lt_pow raw n)
    (h.inRneRange_gridPoint (Nat.le_succ _) le_rfl) hupper
  refine ⟨d, q, hinC, fun d' q' r' hr' => ?_⟩
  rw [hinC.abs_sub_xval, hr'.abs_sub_xval, abs_gridPoint, abs_sub_comm, abs_of_pos (sub_pos.2 hlt)]
  rcases hr'.lower_or_upper h with ⟨hlow, hlower⟩ | ⟨hupp, -⟩
  · have hle := gridDigits_mul_le raw n
    have hnot := hbest hlower
    simp only [LowerIsNearer, not_or, not_and, not_lt] at hnot
    obtain ⟨hfar, hodd⟩ := hnot
    rw [abs_of_nonneg (sub_nonneg.2 (hlow.trans hle)), Nat.cast_succ, add_one_mul]
    refine ⟨by linarith, fun heq _ => ?_⟩
    have hodd := hodd (by linarith)
    rcases hd with rfl | ⟨-, rfl⟩
    · exact Nat.even_iff.2 (by omega)
    · exact (by decide : Even 10).pow_of_ne_zero (ne_zero_of_both_back h hlower hupper)
  · rw [Nat.cast_succ, add_one_mul] at hlt ⊢
    rw [abs_sub_comm, abs_of_pos (a := |r'| - |xval raw|) (by linarith)]
    refine ⟨by linarith, fun heq hne => absurd (hr'.eq_of_abs_eq hinC ?_) hne⟩
    rw [abs_gridPoint, Nat.cast_succ, add_one_mul]
    linarith

/-- What the search of one length finds is nearest in its `C_p`. -/
theorem nearestInC_of_shortestOfLength_eq_some {raw : Bits64} (h : MidRange raw) {n : ℕ} {s : ℚ}
    (hs : shortestOfLength (n + 1) raw = some s) : NearestInC raw (n + 1) s := by
  classical
  rw [shortestOfLength_succ] at hs
  split_ifs at hs with hlow hupp
  · cases hs
    exact nearestInC_lower h hlow.1 fun hupper => hlow.2.resolve_left (not_not_intro hupper)
  · cases hs
    exact nearestInC_upper h hupp fun hlower hnear => hlow ⟨hlower, .inr hnear⟩

/-- Where the search of one length finds nothing, neither of its two decimals converts back. -/
theorem not_back_of_shortestOfLength_eq_none {raw : Bits64} {n : ℕ} (hs : shortestOfLength (n + 1) raw = none) :
    rne64 (gridPoint raw n (gridDigits raw n)) ≠ raw ∧ rne64 (gridPoint raw n (gridDigits raw n + 1)) ≠ raw := by
  rw [shortestOfLength_succ] at hs
  split_ifs at hs with hlow hupp
  exact ⟨fun hlower => hlow ⟨hlower, .inl hupp⟩, hupp⟩

theorem not_inC_of_shortestOfLength_eq_none {raw : Bits64} (h : MidRange raw) {n : ℕ}
    (hs : shortestOfLength (n + 1) raw = none) (d : ℕ) (q : ℤ) (r : ℚ) : ¬ InC raw (n + 1) d q r := by
  intro hr
  obtain ⟨hlower, hupper⟩ := not_back_of_shortestOfLength_eq_none hs
  rcases hr.lower_or_upper h with ⟨-, hback⟩ | ⟨-, hback⟩
  · exact hlower hback
  · exact hupper hback

/-! ## The search of seventeen digits always succeeds -/

/-- A grid point converts back if it is not below the binade of XVAL and nearer to XVAL than half a unit in the last
place. -/
theorem rne64_gridPoint_eq_of_near {raw : Bits64} (h : MidRange raw) {n m : ℕ} (hm : 0 < m)
    (hbinade : 2 ^ 52 * ulp raw ≤ m * gridUnit raw n) (hnear : |m * gridUnit raw n - (|xval raw|)| < ulp raw / 2) :
    rne64 (gridPoint raw n m) = raw := by
  obtain ⟨hlo, hhi⟩ := h
  rw [← abs_gridPoint] at hbinade hnear
  refine rne64_eq_of_near (by omega) (by omega) ?_ hbinade hnear
  rw [signField_eq_ite]
  simp only [gridPoint_neg_iff hm]

/-- Seventeen digits place a decimal nearer to XVAL than half a unit in its last place, above it or below; at a power of
two, where the patterns below lie closer, the one above is near enough by itself (R143). -/
theorem shortestOfLength_seventeen_ne_none {raw : Bits64} (h : MidRange raw) : shortestOfLength (16 + 1) raw ≠ none := by
  intro hnone
  obtain ⟨hlower, hupper⟩ := not_back_of_shortestOfLength_eq_none hnone
  have hulp := ulp_pos raw
  have hlow := two_pow_mul_ulp_le_abs_xval raw
  have hlast := abs_xval_add_ulp_le raw
  have hle := gridDigits_mul_le raw 16
  have hlt := lt_gridDigits_succ_mul raw 16
  have hunit := zpow_dexp_le (abs_pos.2 (xval_ne_zero raw))
  rw [zpow_dexp_eq_pow_mul_gridUnit raw 16] at hunit
  push_cast at hunit
  rw [Nat.cast_succ, add_one_mul] at hlt
  have habove (hnear : gridDigits raw 16 * gridUnit raw 16 + gridUnit raw 16 - |xval raw| < ulp raw / 2) : False := by
    refine hupper (rne64_gridPoint_eq_of_near h (Nat.succ_pos _) ?_ ?_)
    all_goals rw [Nat.cast_succ, add_one_mul]
    · linarith
    · rwa [abs_of_pos (by linarith)]
  by_cases hfrac : (fracField raw).toNat = 0
  · have hpow := abs_xval_eq_mul_ulp raw
    rw [hfrac, Nat.cast_zero, add_zero] at hpow
    exact habove (by linarith)
  · have hnext : (2 ^ 52 + 1) * ulp raw ≤ |xval raw| := by
      rw [abs_xval_eq_mul_ulp]
      gcongr
      exact_mod_cast Nat.one_le_iff_ne_zero.2 hfrac
    have hfar := not_lt.1 habove
    refine hlower (rne64_gridPoint_eq_of_near h (gridDigits_pos raw 16) (by linarith) ?_)
    rw [abs_sub_comm, abs_of_nonneg (by linarith)]
    linarith

/-! ## SHORTEST -/

/-- The search over the lengths stops at the first one at which something is found. -/
theorem exists_shortestOfLength_eq_shortest {raw : Bits64} (h : MidRange raw) :
    ∃ n ≤ 16, shortestOfLength (n + 1) raw = some (shortest raw) ∧ ∀ m < n, shortestOfLength (m + 1) raw = none := by
  have hfind : ((List.range 17).findSome? fun i => shortestOfLength (i + 1) raw) = some (shortest raw) := by
    unfold shortest
    cases hcase : (List.range 17).findSome? fun i => shortestOfLength (i + 1) raw with
    | some s => rfl
    | none =>
      rw [List.findSome?_eq_none_iff] at hcase
      exact absurd (hcase 16 (by decide)) (shortestOfLength_seventeen_ne_none h)
  obtain ⟨before, n, after, hrange, hn, hnone⟩ := List.findSome?_eq_some_iff.1 hfind
  have hsorted := hrange ▸ List.pairwise_lt_range (n := 17)
  have hmem {m : ℕ} : m < 17 ↔ m ∈ before ++ n :: after := hrange ▸ List.mem_range.symm
  obtain ⟨-, hafter, -⟩ := List.pairwise_append.1 hsorted
  refine ⟨n, Nat.le_of_lt_succ (hmem.2 (by simp)), hn, fun m hm => hnone m ?_⟩
  have hm17 : m < 17 := hm.trans (hmem.2 (by simp))
  rcases List.mem_append.1 (hmem.1 hm17) with hbefore | hrest
  · exact hbefore
  · rcases List.mem_cons.1 hrest with rfl | hlater
    · exact absurd hm (lt_irrefl _)
    · exact absurd hm (List.rel_of_pairwise_cons hafter hlater).not_gt

theorem isShortest_shortest {raw : Bits64} (h : MidRange raw) : IsShortest raw (shortest raw) := by
  obtain ⟨n, -, hn, hnone⟩ := exists_shortestOfLength_eq_shortest h
  obtain ⟨d, q, hinC, hnearest⟩ := nearestInC_of_shortestOfLength_eq_some h hn
  refine ⟨n + 1, d, q, hinC, fun p hp d' q' r' hr' => ?_, hnearest⟩
  obtain ⟨m, rfl⟩ : ∃ m, p = m + 1 := Nat.exists_eq_succ_of_ne_zero hr'.length_ne_zero
  exact not_inC_of_shortestOfLength_eq_none h (hnone m (Nat.lt_of_succ_lt_succ hp)) d' q' r' hr'

theorem midRange_rawPattern {v : RawValue} (h : v.b5 ≠ 0) : MidRange (rawPattern v) := by
  have hexp := expField_rawPattern_bounds h
  exact ⟨by omega, hexp.2⟩

/-- Settles O37: the search finds the nearest in the first non-empty `C_p` (`isShortest_shortest`), and finds something at
seventeen digits (R143). -/
theorem shortestMeetsItsDefinition : Obligations.ShortestMeetsItsDefinition := by
  intro v h
  have hmid := midRange_rawPattern h
  obtain ⟨s, hs⟩ := Option.ne_none_iff_exists'.1 (shortestOfLength_seventeen_ne_none hmid)
  obtain ⟨d, q, hinC, -⟩ := nearestInC_of_shortestOfLength_eq_some hmid hs
  exact ⟨isShortest_shortest hmid, 17, d, q, s, le_rfl, hinC⟩

end Sys2Proof.Machine
end

section
/-! The whole precision-truncation unit (43_precision_truncation.md R148 to R154) and what it says of VALUE in the class
`DECODE.NORMAL` (40_converter.md R90, R91). -/

namespace Sys2Proof.Machine

/-! ## DSRC and TVAL -/

theorem rne64_shortest {raw : Bits64} (h : MidRange raw) : rne64 (shortest raw) = raw := by
  obtain ⟨p, d, q, hinC, -⟩ := isShortest_shortest h
  exact hinC.rne64_eq

/-- In both modes DSRC converts back to RAW64. -/
theorem rne64_digitSource {raw : Bits64} (h : MidRange raw) (ds : DigitSource) : rne64 (digitSource ds raw) = raw := by
  cases ds with
  | exact => exact h.rne64_xval
  | shortest => exact rne64_shortest h

theorem digitSource_ne_zero (ds : DigitSource) (raw : Bits64) : digitSource ds raw ≠ 0 :=
  abs_pos.1 (lt_of_lt_of_le (by positivity) (abs_digitSource_bounds ds raw).1)

/-- SHORTEST is within half a unit in the last place of XVAL (R148). -/
theorem abs_shortest_sub_xval_le {raw : Bits64} (h : MidRange raw) : |shortest raw - xval raw| ≤ ulp raw / 2 := by
  obtain ⟨p, d, q, hinC, -⟩ := isShortest_shortest h
  have hround := (abs_rne64_sub_le hinC.inRneRange).1
  rwa [hinC.rne64_eq, abs_sub_comm, ← hinC.abs_sub_xval] at hround

/-- A power of ten at or below a number is at or below its truncation. -/
theorem zpow_le_abs_trunc11 {r : ℚ} {k : ℤ} (hr : r ≠ 0) (h : (10 : ℚ) ^ k ≤ |r|) : (10 : ℚ) ^ k ≤ |trunc11 r| := by
  have hlt := h.trans_lt (lt_zpow_dexp_add_one (abs_pos.2 hr))
  rw [zpow_lt_zpow_iff_right₀ (by norm_num)] at hlt
  exact (zpow_le_zpow_right₀ (by norm_num) (Int.lt_add_one_iff.1 hlt)).trans (zpow_dexp_le_abs_trunc11 hr)

/-- RNE64 is applied to TVAL in its range (R148). -/
theorem inRneRange_trunc11_digitSource {raw : Bits64} (h : MidRange raw) (ds : DigitSource) :
    InRneRange (trunc11 (digitSource ds raw)) := by
  obtain ⟨hlo, hhi⟩ := abs_digitSource_bounds ds raw
  exact h.inRneRange (zpow_le_abs_trunc11 (digitSource_ne_zero ds raw) hlo) ((abs_trunc11_le _).trans hhi)

theorem truncatedValue_eq (ds : DigitSource) (raw : Bits64) :
    truncatedValue ds raw = rne64 (trunc11 (digitSource ds raw)) := rfl

/-- VALUE has the sign of RAW64. -/
theorem signField_truncatedValue {raw : Bits64} (h : MidRange raw) (ds : DigitSource) :
    signField (truncatedValue ds raw) = signField raw := by
  rw [truncatedValue_eq, signField_rne64, signField_eq_ite raw]
  simp only [trunc11_neg_iff (digitSource_ne_zero ds raw), neg_iff_of_rne64_eq (rne64_digitSource h ds)]

/-! ## Where the two modes agree -/

theorem trunc11_xval (raw : Bits64) : trunc11 (xval raw) = gridPoint raw 10 (gridDigits raw 10) := by
  rw [trunc11_eq, magnitude_eq_abs]
  rfl

/-- A number strictly between the two eleven-digit decimals next to XVAL, of its sign, is truncated to the lower one. -/
theorem trunc11_eq_of_between {raw : Bits64} {r : ℚ} (hsign : r < 0 ↔ xval raw < 0)
    (hlo : gridDigits raw 10 * gridUnit raw 10 ≤ |r|) (hhi : |r| < (gridDigits raw 10 + 1 : ℕ) * gridUnit raw 10) :
    trunc11 r = trunc11 (xval raw) := by
  have hunit := gridUnit_pos raw 10
  have hlow : (10 : ℚ) ^ dexp |xval raw| ≤ |r| := by
    refine le_trans ?_ hlo
    rw [zpow_dexp_eq_pow_mul_gridUnit raw 10]
    exact mul_le_mul_of_nonneg_right (Nat.cast_le.2 (pow_le_gridDigits raw 10)) hunit.le
  have hupp : |r| < (10 : ℚ) ^ (dexp |xval raw| + 1) := by
    refine hhi.trans_le ?_
    rw [zpow_add_one₀ (by norm_num), zpow_dexp_eq_pow_mul_gridUnit raw 10, mul_right_comm]
    refine mul_le_mul_of_nonneg_right ?_ hunit.le
    exact_mod_cast gridDigits_lt_pow raw 10
  have hr : 0 < |r| := lt_of_lt_of_le (by positivity) hlow
  have hdexp : dexp |r| = dexp |xval raw| := ilog_unique (b := 10) (by norm_num) hr hlow hupp
  have hdigits : ⌊|r| / (10 : ℚ) ^ (dexp |xval raw| - 10)⌋₊ = gridDigits raw 10 :=
    (Nat.floor_eq_iff (by positivity)).2 ⟨(le_div_iff₀ hunit).2 hlo, (div_lt_iff₀ hunit).2 (by exact_mod_cast hhi)⟩
  rw [trunc11_xval, trunc11_eq, magnitude_eq_abs, hdexp, hdigits, gridPoint, sgn_eq_ite (abs_pos.1 hr),
    sgn_eq_ite (xval_ne_zero raw)]
  simp only [hsign]
  rfl

/-- SHORTEST has at most eleven digits, or is truncated as XVAL is: otherwise one of the two eleven-digit decimals next to
XVAL would lie between XVAL and SHORTEST and be a shorter decimal that converts back (R154). -/
theorem hasDigits_or_trunc11_shortest_eq {raw : Bits64} (h : MidRange raw) :
    HasDigits 11 (shortest raw) ∨ trunc11 (shortest raw) = trunc11 (xval raw) := by
  obtain ⟨p, d, q, hinC, hmin, -⟩ := isShortest_shortest h
  rcases Nat.lt_or_ge 11 p with hp | hp
  · have hnone {m : ℕ} (hm : gridDigits raw 10 ≤ m) (hm' : m ≤ gridDigits raw 10 + 1) :
        rne64 (gridPoint raw 10 m) ≠ raw := fun hback => by
      obtain ⟨d', q', hinC', -⟩ := inC_gridPoint ((pow_le_gridDigits raw 10).trans hm)
        (hm'.trans (gridDigits_lt_pow raw 10)) (h.inRneRange_gridPoint hm hm') hback
      exact hmin 11 hp d' q' _ hinC'
    refine .inr (trunc11_eq_of_between (neg_iff_of_rne64_eq hinC.rne64_eq) (le_of_not_ge fun hle => ?_)
      (lt_of_not_ge fun hle => ?_))
    · exact hnone le_rfl (Nat.le_succ _) (rne64_lower_eq h hinC.inRneRange hinC.rne64_eq hle)
    · exact hnone (Nat.le_succ _) le_rfl (rne64_upper_eq h hinC.inRneRange hinC.rne64_eq hle)
  · exact .inl (hinC.hasDigits hp)

theorem truncatedValue_shortest_of_hasDigits {raw : Bits64} (h : MidRange raw) (hdigits : HasDigits 11 (shortest raw)) :
    truncatedValue .shortest raw = raw := by
  rw [truncatedValue_eq, digitSource, trunc11_eq_self hdigits, rne64_shortest h]

/-- In both modes VALUE is RAW64 or the rounded truncation of XVAL. -/
theorem truncatedValue_cases {raw : Bits64} (h : MidRange raw) (ds : DigitSource) :
    truncatedValue ds raw = raw ∨ truncatedValue ds raw = rne64 (trunc11 (xval raw)) := by
  cases ds with
  | exact => exact .inr rfl
  | shortest =>
    rcases hasDigits_or_trunc11_shortest_eq h with hdigits | htrunc
    · exact .inl (truncatedValue_shortest_of_hasDigits h hdigits)
    · exact .inr (congrArg rne64 htrunc)

/-- Settles O38: `trunc11_eq_self`, and DSRC converts back to RAW64 in both modes (R150). -/
theorem valuesOfElevenDigitsAreUnchanged : Obligations.ValuesOfElevenDigitsAreUnchanged := by
  refine ⟨fun r => trunc11_eq_self, fun v h => ⟨fun hdigits => ?_, ?_⟩⟩
  · rw [truncatedValue_eq, digitSource, trunc11_eq_self hdigits, (midRange_rawPattern h).rne64_xval]
  · exact truncatedValue_shortest_of_hasDigits (midRange_rawPattern h)

/-- If SHORTEST has at most eleven digits and is not above XVAL, the truncated XVAL lies between the two, which both convert
back, and so converts back too. -/
theorem rne64_trunc11_xval_eq {raw : Bits64} (h : MidRange raw) (hdigits : HasDigits 11 (shortest raw))
    (hle : |shortest raw| ≤ |xval raw|) : rne64 (trunc11 (xval raw)) = raw := by
  obtain ⟨p, d, q, hinC, -⟩ := isShortest_shortest h
  have hne : shortest raw ≠ 0 := digitSource_ne_zero .shortest raw
  have hmono := abs_trunc11_mono hne hle
  rw [trunc11_eq_self hdigits] at hmono
  refine rne64_eq_of_between hinC.inRneRange h.inRneRange_xval hinC.rne64_eq h.rne64_xval hmono (abs_trunc11_le _) ?_
  rw [trunc11_neg_iff (xval_ne_zero raw), neg_iff_of_rne64_eq hinC.rne64_eq]

/-- Settles O39: `hasDigits_or_trunc11_shortest_eq` and `rne64_trunc11_xval_eq`; the spec's example is evaluated (R154). -/
theorem digitSourcesDifferOnlyOnShortDecimals : Obligations.DigitSourcesDifferOnlyOnShortDecimals := by
  refine ⟨fun v hb5 => ?_, by decide, by decide⟩
  have h := midRange_rawPattern hb5
  refine ⟨fun hlong => ?_, fun hdigits => ⟨truncatedValue_shortest_of_hasDigits h hdigits, rfl⟩, fun hdiffer => ?_⟩
  · have htrunc := (hasDigits_or_trunc11_shortest_eq h).resolve_left hlong
    exact ⟨htrunc, congrArg rne64 htrunc⟩
  · rcases hasDigits_or_trunc11_shortest_eq h with hdigits | htrunc
    · refine lt_of_not_ge fun hle => hdiffer ?_
      rw [truncatedValue_shortest_of_hasDigits h hdigits]
      exact rne64_trunc11_xval_eq h hdigits hle
    · exact absurd (congrArg rne64 htrunc.symm) hdiffer

/-! ## The loss -/

theorem abs_xval_truncatedValue_le {raw : Bits64} (h : MidRange raw) (ds : DigitSource) :
    |xval (truncatedValue ds raw)| ≤ |xval raw| := by
  rcases truncatedValue_cases h ds with heq | heq
  · rw [heq]
  · have hmono := abs_xval_rne64_le (inRneRange_trunc11_digitSource h .exact) h.inRneRange_xval (abs_trunc11_le _)
    rwa [h.rne64_xval, digitSource, ← heq] at hmono

/-- The truncation loses less than one unit of the eleventh digit, the rounding at most half a unit in the last place
(R151). -/
theorem abs_xval_sub_truncatedValue_lt {raw : Bits64} (h : MidRange raw) (ds : DigitSource) :
    |xval raw| - |xval (truncatedValue ds raw)| < |xval raw| * ((10 : ℚ) ^ (-10 : ℤ) + (2 : ℚ) ^ (-53 : ℤ)) := by
  have hx : 0 < |xval raw| := abs_pos.2 (xval_ne_zero raw)
  rcases truncatedValue_cases h ds with heq | heq
  · rw [heq, sub_self]
    positivity
  · have hrange : InRneRange (trunc11 (xval raw)) := inRneRange_trunc11_digitSource h .exact
    obtain ⟨-, hround⟩ := abs_le.1 (abs_rne64_sub_le hrange).2
    rw [← heq] at hround
    have htrunc := abs_lt_abs_trunc11_add (xval_ne_zero raw)
    have hle : |trunc11 (xval raw)| * (2 : ℚ) ^ (-53 : ℤ) ≤ |xval raw| * (2 : ℚ) ^ (-53 : ℤ) :=
      mul_le_mul_of_nonneg_right (abs_trunc11_le _) (by positivity)
    have hunit : (10 : ℚ) ^ (dexp |xval raw| - 10) ≤ |xval raw| * (10 : ℚ) ^ (-10 : ℤ) := by
      rw [sub_eq_add_neg, zpow_add₀ (by norm_num)]
      exact mul_le_mul_of_nonneg_right (zpow_dexp_le hx) (by positivity)
    linarith

/-- Settles O40: `abs_xval_truncatedValue_le` and `abs_xval_sub_truncatedValue_lt` (R151). -/
theorem valueIsNeverLargerThanItsInput : Obligations.ValueIsNeverLargerThanItsInput :=
  fun _ ds h => ⟨abs_xval_truncatedValue_le (midRange_rawPattern h) ds,
    abs_xval_sub_truncatedValue_lt (midRange_rawPattern h) ds⟩

/-- VALUE is at most XVAL and more than half of it, so its exponent field is that of RAW64 or the one below (R148). -/
theorem expField_truncatedValue_bounds {raw : Bits64} (h : MidRange raw) (ds : DigitSource) :
    (expField raw).toNat ≤ (expField (truncatedValue ds raw)).toNat + 1 ∧
      (expField (truncatedValue ds raw)).toNat ≤ (expField raw).toNat := by
  refine ⟨?_, expField_le_of_abs_xval_le (abs_xval_truncatedValue_le h ds)⟩
  have hloss := abs_xval_sub_truncatedValue_lt h ds
  have hfactor : |xval raw| * ((10 : ℚ) ^ (-10 : ℤ) + (2 : ℚ) ^ (-53 : ℤ)) ≤ |xval raw| * (1 / 2) := by
    gcongr
    norm_num
  have hlt : (2 : ℚ) ^ (((expField raw).toNat : ℤ) - 1023) <
      (2 : ℚ) ^ (((expField (truncatedValue ds raw)).toNat : ℤ) - 1022 + 1) := by
    have hhalf := hloss.trans_le hfactor
    have hlow := zpow_le_abs_xval raw
    have hupp := abs_xval_lt_zpow (truncatedValue ds raw)
    rw [zpow_add_one₀ (by norm_num)]
    linarith
  rw [zpow_lt_zpow_iff_right₀ (by norm_num)] at hlt
  omega

theorem midRange_truncatedValue {v : RawValue} (h : v.b5 ≠ 0) (ds : DigitSource) :
    MidRange (truncatedValue ds (rawPattern v)) := by
  have hexp := expField_rawPattern_bounds h
  have hvalue := expField_truncatedValue_bounds (midRange_rawPattern h) ds
  unfold MidRange
  omega

/-- Settles O41: TVAL lies between the power of ten below XVAL and DSRC, in the range of RNE64; and the exponent field of
VALUE is at most one below that of RAW64 (R148). -/
theorem resultStaysNormalAndInRange : Obligations.ResultStaysNormalAndInRange := by
  refine ⟨fun v k h hlo hhi => ⟨zpow_le_abs_trunc11 (xval_ne_zero _) hlo, abs_trunc11_le _⟩, fun v h => ⟨?_, ?_⟩,
    fun v ds h => ?_, by decide⟩
  · exact (hasDigits_or_trunc11_shortest_eq (midRange_rawPattern h)).symm.imp_right trunc11_eq_self
  · have hhalf : (2 : ℚ) ^ (((expField (rawPattern v)).toNat : ℤ) - 1076) = ulp (rawPattern v) / 2 := by
      rw [ulp, eq_div_iff two_ne_zero, ← zpow_add_one₀ (by norm_num)]
      congr 1
      ring
    rw [hhalf]
    exact abs_shortest_sub_xval_le (midRange_rawPattern h)
  · obtain ⟨hlo, hhi⟩ := inRneRange_trunc11_digitSource (midRange_rawPattern h) ds
    obtain ⟨helo, hehi⟩ := midRange_truncatedValue h ds
    exact ⟨hlo, hhi, helo, hehi⟩

/-! ## SHORTEST of VALUE -/

/-- TVAL is in `C_11` of VALUE: it has eleven digits and converts to VALUE. -/
theorem exists_inC_trunc11 {raw : Bits64} (h : MidRange raw) (ds : DigitSource) :
    ∃ d q, InC (truncatedValue ds raw) 11 d q (trunc11 (digitSource ds raw)) := by
  have hne := digitSource_ne_zero ds raw
  have hpos : 0 < |digitSource ds raw| := abs_pos.2 hne
  refine ⟨⌊|digitSource ds raw| / (10 : ℚ) ^ (dexp |digitSource ds raw| - (10 : ℕ))⌋₊,
    dexp |digitSource ds raw| - (10 : ℕ), by norm_num, pow_le_floor_div_grid 10 (zpow_dexp_le hpos),
    floor_div_grid_lt_pow 10 hpos.le (lt_zpow_dexp_add_one hpos), ?_, inRneRange_trunc11_digitSource h ds, rfl⟩
  have hsgn : (sgn (xval (truncatedValue ds raw)) : ℚ) = sgn (digitSource ds raw) := by
    rw [sgn_eq_ite (xval_ne_zero _), sgn_eq_ite hne]
    simp only [← neg_iff_of_rne64_eq (truncatedValue_eq ds raw).symm, trunc11_neg_iff hne]
  rw [hsgn, trunc11_eq, magnitude_eq_abs]
  rfl

/-- Settles O43: SHORTEST of VALUE has no more digits than TVAL, which converts to VALUE (R152). -/
theorem shortestDecimalOfTheValueHasElevenDigits : Obligations.ShortestDecimalOfTheValueHasElevenDigits := by
  intro v ds hb5
  have hshortest := isShortest_shortest (midRange_truncatedValue hb5 ds)
  refine ⟨?_, hshortest⟩
  obtain ⟨p, d, q, hinC, hmin, -⟩ := hshortest
  obtain ⟨d', q', htval⟩ := exists_inC_trunc11 (midRange_rawPattern hb5) ds
  exact hinC.hasDigits (not_lt.1 fun hlt => hmin 11 hlt d' q' _ htval)

/-! ## The sign through the unit -/

theorem gridUnit_flipSign (raw : Bits64) (n : ℕ) : gridUnit (flipSign raw) n = gridUnit raw n := by
  rw [gridUnit, xval_flipSign, abs_neg, gridUnit]

theorem gridDigits_flipSign (raw : Bits64) (n : ℕ) : gridDigits (flipSign raw) n = gridDigits raw n := by
  rw [gridDigits, gridUnit_flipSign, xval_flipSign, abs_neg, gridDigits]

theorem gridPoint_flipSign (raw : Bits64) (n m : ℕ) : gridPoint (flipSign raw) n m = -gridPoint raw n m := by
  rw [gridPoint, gridUnit_flipSign, xval_flipSign, sgn_neg, gridPoint]
  push_cast
  ring

theorem lowerIsNearer_flipSign (raw : Bits64) (n : ℕ) : LowerIsNearer (flipSign raw) n ↔ LowerIsNearer raw n := by
  rw [LowerIsNearer, gridUnit_flipSign, gridDigits_flipSign, xval_flipSign, abs_neg, LowerIsNearer]

theorem flipSign_inj {p p' : Bits64} : flipSign p = flipSign p' ↔ p = p' :=
  ⟨fun h => by rw [← flipSign_flipSign p, h, flipSign_flipSign], congrArg _⟩

theorem rne64_gridPoint_flipSign (raw : Bits64) (n : ℕ) {m : ℕ} (hm : 0 < m) :
    rne64 (gridPoint (flipSign raw) n m) = flipSign raw ↔ rne64 (gridPoint raw n m) = raw := by
  have hne : gridPoint raw n m ≠ 0 := by
    rw [← abs_pos, abs_gridPoint]
    exact mul_pos (Nat.cast_pos.2 hm) (gridUnit_pos raw n)
  rw [gridPoint_flipSign, rne64_neg hne, flipSign_inj]

/-- The search of one length treats a pattern and its negative alike. -/
theorem shortestOfLength_flipSign (n : ℕ) (raw : Bits64) :
    shortestOfLength (n + 1) (flipSign raw) = (shortestOfLength (n + 1) raw).map (-·) := by
  classical
  rw [shortestOfLength_succ, shortestOfLength_succ]
  simp only [gridDigits_flipSign, lowerIsNearer_flipSign, ne_eq, rne64_gridPoint_flipSign raw n (gridDigits_pos raw n),
    rne64_gridPoint_flipSign raw n (Nat.succ_pos (gridDigits raw n))]
  simp only [gridPoint_flipSign]
  split_ifs <;> rfl

theorem shortest_flipSign (raw : Bits64) : shortest (flipSign raw) = -shortest raw := by
  unfold shortest
  simp only [shortestOfLength_flipSign, xval_flipSign]
  rw [← Option.getD_map (-·), List.map_findSome?]
  rfl

theorem digitSource_flipSign (ds : DigitSource) (raw : Bits64) : digitSource ds (flipSign raw) = -digitSource ds raw := by
  cases ds with
  | exact => exact xval_flipSign raw
  | shortest => exact shortest_flipSign raw

theorem truncatedValue_flipSign (ds : DigitSource) (raw : Bits64) :
    truncatedValue ds (flipSign raw) = flipSign (truncatedValue ds raw) := by
  rw [truncatedValue_eq, digitSource_flipSign, trunc11_neg, rne64_neg (trunc11_ne_zero (digitSource_ne_zero ds raw)),
    truncatedValue_eq]

/-- Flipping `b0[7]` flips SIGN and leaves the significand. -/
theorem rawPattern_flip_b0 (v : RawValue) : rawPattern { v with b0 := v.b0 ^^^ 0x80 } = flipSign (rawPattern v) := by
  have hsign : signBit (v.b0 ^^^ 0x80) = signBit v.b0 ^^^ 1 := by
    rw [signBit_eq_extract, signBit_eq_extract, BitVec.extractLsb'_xor]
    rfl
  have hfrag : frag7 (v.b0 ^^^ 0x80) = frag7 v.b0 := by
    rw [frag7_eq_extract, frag7_eq_extract, BitVec.extractLsb'_xor]
    exact BitVec.xor_zero
  rw [rawPattern, rawPattern, flipSign_assemble, significand, significand, hsign, hfrag]

theorem extractLsb'_flipSign (p : Bits64) : (flipSign p).extractLsb' 0 63 = p.extractLsb' 0 63 := by
  rw [flipSign, BitVec.extractLsb'_xor]
  exact BitVec.xor_zero

/-- Settles O42: `trunc11_neg`, `rne64_neg` and `shortest_flipSign`; so flipping the sign bit of RAW64 flips it in VALUE and
nothing else (R149). -/
theorem signPassesThroughTheUnit : Obligations.SignPassesThroughTheUnit := by
  refine ⟨trunc11_neg, fun r => rne64_neg, shortest_flipSign, fun v ds h => ⟨?_, ?_⟩⟩
  · rw [signField_truncatedValue (midRange_rawPattern h), signField_rawPattern]
  · rw [rawPattern_flip_b0, truncatedValue_flipSign, extractLsb'_flipSign]

/-! ## VALUE of six bytes -/

/-- What six bytes are answered with, in terms of RAW64. -/
theorem exec_decodeSix_eq (v : RawValue) (s : State) : exec (decodeSix v) s = .next { s with
    rsp := some (.ok (if v.b5 = 0 then 0 else truncatedValue s.config.digitSource (rawPattern v))
      (echoOf s.config v)) } := by
  rw [exec_decodeSix, response_bytes, rawPattern_eq_patternOf]

/-- Settles O17: a zero has exponent field 0, and VALUE of a nonzero exponent byte at least 894 (R91). -/
theorem zeroValueExactlyForZeroExponent : Obligations.ZeroValueExactlyForZeroExponent := by
  refine fun v s => ⟨_, _, exec_decodeSix_eq v s, fun h => if_pos h, fun h => ?_⟩
  obtain ⟨hexp, -⟩ := midRange_truncatedValue h s.config.digitSource
  rw [if_neg h]
  constructor
  all_goals
    intro hzero
    rw [hzero] at hexp
    exact absurd hexp (by decide)

/-- Settles O18: the class reads `b5` alone, and in class `DECODE.NORMAL` the flip passes through to VALUE
(`rawPattern_flip_b0`, `truncatedValue_flipSign`; R90). -/
theorem flippingTheSignBitFlipsOnlyBit63 : Obligations.FlippingTheSignBitFlipsOnlyBit63 := by
  intro v s
  have hflip := exec_decodeSix_eq { v with b0 := v.b0 ^^^ 0x80 } s
  rw [rawPattern_flip_b0, truncatedValue_flipSign] at hflip
  refine ⟨_, _, echoOf s.config { v with b0 := v.b0 ^^^ 0x80 }, exec_decodeSix_eq v s, hflip.trans ?_⟩
  by_cases h : v.b5 = 0
  · simp only [if_pos h]
  · simp only [if_neg h]
    rfl

end Sys2Proof.Machine
end
